-- ==== Sys2Proof/Word.lean ====
section
/-! DEFINITION. The machine's word (00_scope.md R6, R8) and its plainest arithmetic (R9). -/

namespace Sys2Proof

/-- One word: the 16-bit unit of memory and registers (R6 `WORD`, R12). -/
abbrev Word := BitVec 16

/-- Half a word: the unit of the image file (20_memory.md R52) and of the model's memory cells
(log entry 1). No instruction sees one. -/
abbrev Byte := BitVec 8

/-- `trunc16(v) = v mod 65536` of R9. -/
def trunc16 (v : Nat) : Word := BitVec.ofNat 16 v

end Sys2Proof
end

