-- ==== Sys2Proof/Config.lean ====
section
/-! DEFINITION. What an implementation fixes (00_scope.md R6, R7; 40_execution_loop.md R120), and the
free values of the shifts (log entry 6). The host's free replies stand in Machine/HostPort.lean, since
they may read the whole state. -/

namespace Sys2Proof

/-- R7 `undefExtPolicy`: what an executed undefined extended instruction does (43_extended.md R189). -/
inductive UndefExtPolicy where
  | fault | nop
  deriving DecidableEq, Repr

/-- R7 `skipStackEffect`: what a skipped PUSH or POP does to SP (40_execution_loop.md R116). -/
inductive SkipStackEffect where
  | discard | apply
  deriving DecidableEq, Repr

/-- R7 `shiftWide`: the result of SHL and SHR for a count of 32 or more. `mathematical` is the exact
result; `hostDefined` is a result the spec does not give (92_eei_decisions.md D8): a free value. -/
inductive ShiftWide where
  | mathematical | hostDefined
  deriving DecidableEq, Repr

/-- R7 `imageByteOrder` (20_memory.md R52). -/
inductive ImageByteOrder where
  | lowFirst | highFirst
  deriving DecidableEq, Repr

/-- R7 `exitStatusCodes`: "the fixed success and failure exit codes of the host". The spec gives neither
(92_eei_decisions.md D19, OPEN), so they are an argument of what uses them (log entry 21). -/
structure ExitStatusCodes where
  success : Nat
  failure : Nat
  deriving DecidableEq, Repr

/-- One entry of the caller-supplied syscall table, "(id → handler, opaque data)" (10_state.md R30).
The handler is named by a number: what it does is a free reply (60_exceptions.md R213, log entry 3). -/
structure SyscallEntry where
  id : Word
  handler : Nat
  data : Nat
  deriving DecidableEq, Repr

/-- The parameters of R7 that are fixed per session (10_state.md R30), as plain data. -/
structure Session where
  sysExtOpcode : BitVec 6
  undefExtPolicy : UndefExtPolicy
  skipStackEffect : SkipStackEffect
  shiftWide : ShiftWide
  syscallTable : List SyscallEntry
  hookPresent : Bool
  deriving DecidableEq, Repr

/-- R7: `sysExtOpcode` is "not 0x00 or 0x01", and every id of the syscall table is a nonzero word. -/
def Session.wf (c : Session) : Bool :=
  c.sysExtOpcode != 0x00 && c.sysExtOpcode != 0x01 && c.syscallTable.all (fun e => e.id != 0)

namespace Config

/-- R6 `JSR_EXT`. -/
def jsrExtOpcode : BitVec 6 := 0x01

/-- R7 `sysExtOpcode`, its default. -/
def sysExtOpcode : BitVec 6 := 0x02

/-- R6 `LIT_EMBED_MAX`. -/
def litEmbedMax : Nat := 31

/-- R6 `MEM_WORDS`. -/
def memWords : Nat := 65536

/-- R7 `imageByteOrder`, its default. -/
def imageByteOrder : ImageByteOrder := .lowFirst

/-- Every parameter of R7 at its stated default. -/
def defaultSession : Session where
  sysExtOpcode := sysExtOpcode
  undefExtPolicy := .fault
  skipStackEffect := .discard
  shiftWide := .mathematical
  syscallTable := []
  hookPresent := false

/-- Free value (log entry 6): `(A, O)` of SHL by 32 or more when `shiftWide` is not `mathematical`
(41_arith_logic.md R147). -/
opaque shlWide : Word → Word → Word × Word

/-- Free value (log entry 6): `O` of SHR by 32 or more when `shiftWide` is not `mathematical` (R148). -/
opaque shrWide : Word → Word → Word

end Config

end Sys2Proof
end

