-- ==== Sys2Proof/Syntax.lean ====
section
/-! DEFINITION. Instructions as syntax: one constructor of `Instr` per row of spec/opcode_table.json,
over the operand forms of 30_encoding.md R74. -/

namespace Sys2Proof

/-- The eight general registers, in index order 0..7 (10_state.md R21). -/
inductive Reg where
  | A | B | C | X | Y | Z | I | J
  deriving DecidableEq, Repr

/-- The operand forms of R74. A form with a trailing word (R76) carries that word. -/
inductive Operand where
  /-- codes 0x00..0x07, register direct -/
  | reg (r : Reg)
  /-- codes 0x08..0x0F, `[R]` -/
  | regInd (r : Reg)
  /-- codes 0x10..0x17, `[next word + R]` -/
  | regNext (r : Reg) (nw : Word)
  /-- code 0x18, `[SP++]` -/
  | pop
  /-- code 0x19, `[SP]` -/
  | peek
  /-- code 0x1A, `[--SP]` -/
  | push
  /-- code 0x1B -/
  | sp
  /-- code 0x1C -/
  | pc
  /-- code 0x1D -/
  | o
  /-- code 0x1E, `[next word]` -/
  | nextInd (nw : Word)
  /-- code 0x1F, the next word as a literal -/
  | nextLit (nw : Word)
  /-- codes 0x20..0x3F, the embedded literal `v`, 0..31 -/
  | lit (v : Word)
  deriving DecidableEq, Repr

/-- The 17 instructions. In a basic instruction the first operand is the document's A and the second
its B (00_scope.md R11); JSR and SYS have the sole operand B (30_encoding.md R71). The undefined
extended encodings (43_extended.md R189) are no row of the table: `Decoded` holds them (log entry 19). -/
inductive Instr where
  | set (a b : Operand)
  | add (a b : Operand)
  | sub (a b : Operand)
  | mul (a b : Operand)
  | div (a b : Operand)
  | mod (a b : Operand)
  | shl (a b : Operand)
  | shr (a b : Operand)
  | and (a b : Operand)
  | bor (a b : Operand)
  | xor (a b : Operand)
  | ife (a b : Operand)
  | ifn (a b : Operand)
  | ifg (a b : Operand)
  | ifb (a b : Operand)
  | jsr (b : Operand)
  | sys (b : Operand)
  deriving DecidableEq, Repr

/-- The real operands of an instruction, in the order they are resolved (40_execution_loop.md R115). -/
def Instr.operands : Instr → List Operand
  | .set a b => [a, b]
  | .add a b => [a, b]
  | .sub a b => [a, b]
  | .mul a b => [a, b]
  | .div a b => [a, b]
  | .mod a b => [a, b]
  | .shl a b => [a, b]
  | .shr a b => [a, b]
  | .and a b => [a, b]
  | .bor a b => [a, b]
  | .xor a b => [a, b]
  | .ife a b => [a, b]
  | .ifn a b => [a, b]
  | .ifg a b => [a, b]
  | .ifb a b => [a, b]
  | .jsr b => [b]
  | .sys b => [b]

/-- What a first word decodes to (30_encoding.md R81): one of the 17 instructions, or an undefined
extended instruction with its extended opcode and its operand B. -/
inductive Decoded where
  | instr (i : Instr)
  | undefinedExt (xop : BitVec 6) (b : Operand)
  deriving DecidableEq, Repr

/-- The operands a step resolves, defined instruction or not (40_execution_loop.md R115, R117). -/
def Decoded.operands : Decoded → List Operand
  | .instr i => i.operands
  | .undefinedExt _ b => [b]

end Sys2Proof
end

