-- ==== Sys2Proof/Machine/State.lean ====
section
/-! DEFINITION. The architectural state of 10_state.md R20, the configuration that goes with it (R30), and
the reasons the MODEL can stop. The spec's own fault is not one of these: it is the status `faulted`
(60_exceptions.md R203), a next state (log entry 20). -/

namespace Sys2Proof.Machine

/-- The general registers R[0..7] under their names (R21). -/
structure RegFile where
  a : Word
  b : Word
  c : Word
  x : Word
  y : Word
  z : Word
  i : Word
  j : Word
  deriving DecidableEq, Repr

/-- The one cause of a fault and its record (60_exceptions.md R204): the extended opcode, the instruction
word, and the address of the instruction word. -/
inductive FaultCause where
  | illegalExtOpcode (xop : BitVec 6) (word : Word) (addr : Word)
  deriving DecidableEq, Repr

/-- The cause's code (R204). -/
def FaultCause.code : FaultCause → Nat
  | .illegalExtOpcode _ _ _ => 1

/-- The run status (R27). -/
inductive Status where
  | run
  | halted
  | faulted (cause : FaultCause)
  deriving DecidableEq, Repr

/-- Memory's cells: byte `2a` is `mem[a][7:0]` and byte `2a + 1` is `mem[a][15:8]` (log entry 1). An
unlisted byte reads as 0, the value of every word after reset (R32). -/
abbrev Memory := List Host.Cell

/-- The machine (R20), its session's parameters (R30, log entry 2), and `hostCalls`, the model's own
count of host actions, from which free replies are drawn (log entry 5). -/
structure State where
  regs : RegFile
  sp : Word
  pc : Word
  o : Word
  mem : Memory
  skip : Bool
  status : Status
  cyc : Nat
  session : Session
  hostCalls : Nat
  deriving DecidableEq, Repr

/-- One write of the host, in the hook, in a syscall handler or between batches. There is no write of
SKIP, status or CYC (10_state.md R35, R39; 60_exceptions.md R213). -/
inductive HostWrite where
  | reg (r : Reg) (v : Word)
  | sp (v : Word)
  | pc (v : Word)
  | o (v : Word)
  | mem (addr : Word) (v : Word)
  deriving DecidableEq, Repr

/-- What a host action comes to: it returns, having made some writes in order, or it never returns
("may themselves block on console input", R36; 40_execution_loop.md R121). -/
inductive HostReply where
  | returns (writes : List HostWrite)
  | blocks
  deriving DecidableEq, Repr, Inhabited

/-- Why the model has no next state. -/
inductive Fault where
  /-- Raised by SYS when the syscall handler it calls never returns: "a handler that blocks forever leaves
  the run stuck inside this step" (43_extended.md R188; U15: stuck; log entry 7). Safe: the spec's machine takes no
  further step either. -/
  | syscallBlocked
  /-- Raised by `execute`, never by `step`, when the inspection hook never returns (40_execution_loop.md
  R121; U15: stuck; log entry 7). Safe, for the same reason. -/
  | hookBlocked
  /-- Raised by `execute` if its step bound ran out; R124 gives the bound, so it is never raised
  (Obligations.ExecuteNeverRunsOutOfSteps). Safe. -/
  | batchBound
  deriving DecidableEq, Repr

/-- Why the model gives something no meaning. -/
inductive Refusal where
  /-- Raised by `exec`'s arms for an instruction without a meaning; no arm is left that does. Safe. -/
  | notModelled (mnemonic : String)
  /-- Raised by `load` for an image of more than 65536 words (93_implementation_defined.md U10: refuse,
  parameter `imageOverflow`). Safe. -/
  | imageOverflow
  /-- Raised by `load` for an image with a final odd byte (U10: refuse, parameter `oddByteTail`). Safe. -/
  | oddByteTail
  deriving DecidableEq, Repr

/-- Every register 0. -/
def RegFile.zero : RegFile where
  a := 0
  b := 0
  c := 0
  x := 0
  y := 0
  z := 0
  i := 0
  j := 0

/-- The machine after reset under the given parameters (R32, 70_reset_and_hazards.md R220). -/
def State.resetWith (c : Session) : State where
  regs := RegFile.zero
  sp := 0
  pc := 0
  o := 0
  mem := []
  skip := false
  status := .run
  cyc := 0
  session := c
  hostCalls := 0

/-- The machine right after reset, every parameter at its default (R7, R32; log entry 13). -/
def State.reset : State := State.resetWith Config.defaultSession

end Sys2Proof.Machine
end

