-- ==== Sys2Proof/Machine/Ops.lean ====
section
/-! DEFINITION. The named operations over registers and memory, and the two ways a run stops. Every
read and write of the machine goes through these. -/

namespace Sys2Proof.Machine

/-! ### General registers (10_state.md R21) -/

def RegFile.get (f : RegFile) : Reg → Word
  | .A => f.a
  | .B => f.b
  | .C => f.c
  | .X => f.x
  | .Y => f.y
  | .Z => f.z
  | .I => f.i
  | .J => f.j

def RegFile.set (f : RegFile) (r : Reg) (v : Word) : RegFile :=
  match r with
  | .A => { f with a := v }
  | .B => { f with b := v }
  | .C => { f with c := v }
  | .X => { f with x := v }
  | .Y => { f with y := v }
  | .Z => { f with z := v }
  | .I => { f with i := v }
  | .J => { f with j := v }

/-! ### Memory cells (log entry 1) -/

/-- The byte at a cell address; an unlisted one reads as 0 (R32). -/
def Memory.readByte : Memory → Nat → Byte
  | [], _ => 0
  | (k, v) :: rest, n => if k = n then v else Memory.readByte rest n

/-- Without the cell at `n`. -/
def Memory.eraseCell : Memory → Nat → Memory
  | [], _ => []
  | (k, v) :: rest, n =>
    if k = n then Memory.eraseCell rest n else (k, v) :: Memory.eraseCell rest n

/-- With a cell for `n` before the first larger address. -/
def Memory.insertCell : Memory → Nat → Byte → Memory
  | [], n, v => [(n, v)]
  | (k, x) :: rest, n, v =>
    if n < k then (n, v) :: (k, x) :: rest else (k, x) :: Memory.insertCell rest n v

/-- Writes one byte; writing 0, the value of an unlisted cell, leaves none. -/
def Memory.writeByte (m : Memory) (n : Nat) (v : Byte) : Memory :=
  if v = 0 then m.eraseCell n else (m.eraseCell n).insertCell n v

/-- The canonical form from cell address `lo` on: addresses strictly rising, inside the 65536 words, no
cell holding 0. -/
def Memory.wfFrom (lo : Nat) : Memory → Bool
  | [] => true
  | (k, v) :: rest =>
    decide (lo ≤ k) && decide (k < 2 * Config.memWords) && v != 0 && Memory.wfFrom (k + 1) rest

/-- The canonical form of memory. -/
def Memory.wf (m : Memory) : Bool := m.wfFrom 0

/-! ### Words of memory (20_memory.md R50, R51) -/

def lowByte (v : Word) : Byte := v.extractLsb' 0 8

def highByte (v : Word) : Byte := v.extractLsb' 8 8

/-- `MemRead(addr, 1)` -/
def Memory.readWord (m : Memory) (addr : Word) : Word :=
  m.readByte (2 * addr.toNat + 1) ++ m.readByte (2 * addr.toNat)

/-- `MemWrite(addr, 1, v)` -/
def Memory.writeWord (m : Memory) (addr v : Word) : Memory :=
  (m.writeByte (2 * addr.toNat) (lowByte v)).writeByte (2 * addr.toNat + 1) (highByte v)

/-! ### The machine's accessors -/

def State.getReg (s : State) (r : Reg) : Word := s.regs.get r

def State.setReg (s : State) (r : Reg) (v : Word) : State := { s with regs := s.regs.set r v }

def State.setSp (s : State) (v : Word) : State := { s with sp := v }

def State.setPc (s : State) (v : Word) : State := { s with pc := v }

def State.setO (s : State) (v : Word) : State := { s with o := v }

def State.setSkip (s : State) (b : Bool) : State := { s with skip := b }

def State.setStatus (s : State) (st : Status) : State := { s with status := st }

/-- `CYC <- CYC + n` (10_state.md R28). -/
def State.charge (s : State) (n : Nat) : State := { s with cyc := s.cyc + n }

def State.readMem (s : State) (addr : Word) : Word := s.mem.readWord addr

def State.writeMem (s : State) (addr v : Word) : State := { s with mem := s.mem.writeWord addr v }

/-- Counts a host action (log entry 5). -/
def State.countHostCall (s : State) : State := { s with hostCalls := s.hostCalls + 1 }

/-- Past one trailing word: `PC <- PC +16 1; CYC <- CYC + 1` (40_execution_loop.md R104). -/
def State.takeTrailing (s : State) : State := (s.setPc (s.pc + 1)).charge 1

/-- A push: `SP <- SP -16 1; MemWrite(SP, 1, v)` (43_extended.md R186). -/
def State.pushWord (s : State) (v : Word) : State := (s.setSp (s.sp - 1)).writeMem (s.sp - 1) v

/-! ### How a run stops, and what lifts it -/

/-- `raise Fault(cause)` (60_exceptions.md R203): the status records the cause and nothing else changes.
No trap is taken (R206), and there is no return from one (R207): only reset leaves this status. -/
def State.raiseFault (s : State) (c : FaultCause) : State := s.setStatus (.faulted c)

/-- `halt` (00_scope.md R10). -/
def State.halt (s : State) : State := s.setStatus .halted

/-- Reset of a machine in use (70_reset_and_hazards.md R220): every piece of state at its value of R32.
The session's parameters are the host's and stay (10_state.md R30); the model's own count of host calls
goes on, so that later replies are fresh ones. -/
def State.hardReset (s : State) : State :=
  { State.resetWith s.session with hostCalls := s.hostCalls }

/-- `exitValue`, the value of register A (10_state.md R38). -/
def State.exitValue (s : State) : Word := s.getReg .A

/-- What an exit code conveys (R38): "either a fixed success/failure status or, for the interpreter, the final
value of the first general register". No rule says which applies when (91_not_in_source.md N7), so it is an
argument (log entry 21). -/
inductive ExitReport where
  | success
  | failure
  | programValue
  deriving DecidableEq, Repr

/-- The host's exit code at the end of a run, under the parameter `exitStatusCodes` (R38). -/
def State.exitCode (codes : ExitStatusCodes) (report : ExitReport) (s : State) : Nat :=
  match report with
  | .success => codes.success
  | .failure => codes.failure
  | .programValue => s.exitValue.toNat

/-! ### What the host writes (10_state.md R35, R39) -/

def State.hostWrite (s : State) : HostWrite → State
  | .reg r v => s.setReg r v
  | .sp v => s.setSp v
  | .pc v => s.setPc v
  | .o v => s.setO v
  | .mem addr v => s.writeMem addr v

/-- The writes of one host action, in order. Between batches the host acts so too (R35, 60_exceptions.md
R214; log entry 17). -/
def State.hostWrites (s : State) : List HostWrite → State
  | [] => s
  | w :: ws => (s.hostWrite w).hostWrites ws

end Sys2Proof.Machine
end

