-- ==== Sys2Proof/Machine/Flags.lean ====
section
/-! DEFINITION. What goes into the overflow register O and the flag SKIP. O is a full register that the
arithmetic writes (10_state.md R25); intermediates are exact naturals (41_arith_logic.md R140). -/

namespace Sys2Proof.Machine

/-- O of ADD: 1 on carry-out, else 0 (R142). -/
def carryOut (a b : Word) : Word := if a.toNat + b.toNat > 0xFFFF then 0x0001 else 0x0000

/-- O of SUB: 1 on borrow, else 0 (R143; 90_conflicts.md C5). -/
def borrowOut (a b : Word) : Word := if a.toNat < b.toNat then 0x0001 else 0x0000

/-- O of MUL: the high 16 bits of the product (R144). -/
def mulHigh (a b : Word) : Word := trunc16 ((a.toNat * b.toNat) >>> 16)

/-- O of DIV: `((a << 16) / b) & 0xFFFF`, or 0 when b = 0 (R145). -/
def divFraction (a b : Word) : Word :=
  if b = 0 then 0x0000 else trunc16 ((a.toNat <<< 16) / b.toNat)

/-- O of SHL: the high word of `a << b` (R147). -/
def shlOut (a b : Word) : Word := trunc16 ((a.toNat <<< b.toNat) >>> 16)

/-- O of SHR: `((a << 16) >> b) & 0xFFFF` (R148). -/
def shrOut (a b : Word) : Word := trunc16 ((a.toNat <<< 16) >>> b.toNat)

/-- Whether a shift leaves the exact formula for the session's `shiftWide` (R147, R148). -/
def shiftIsWide (w : ShiftWide) (b : Word) : Bool := decide (w ≠ .mathematical) && decide (32 ≤ b.toNat)

/-- SKIP after a comparison: `SKIP <- (cond ? 0 : 1)` (42_conditional.md R170). -/
def skipAfter (cond : Bool) : Bool := !cond

end Sys2Proof.Machine
end

