-- ==== Sys2Proof/Machine/Operands.lean ====
section
/-! DEFINITION. The addressing-mode multiplexer of 40_execution_loop.md: locations (R100-R102), the
resolution of every operand form (R103-R112), its order (R115), and the shared course of a basic
instruction: resolve A, resolve B, latch, compute, write O then A, charge (R118, R120; 41_arith_logic.md
R140). -/

namespace Sys2Proof.Machine

/-- R100: where an operand lives, fixed when it is resolved. -/
inductive Loc where
  | register (r : Reg)
  | memory (addr : Word)
  | programCounter
  | stackPointer
  | overflow
  | immediate (v : Word)
  deriving DecidableEq, Repr

/-- `read(loc)` (R101). -/
def State.readLoc (s : State) : Loc → Word
  | .register r => s.getReg r
  | .memory addr => s.readMem addr
  | .programCounter => s.pc
  | .stackPointer => s.sp
  | .overflow => s.o
  | .immediate v => v

/-- `write(loc, v)` (R102): a write to an Immediate location is discarded. -/
def State.writeLoc (s : State) (l : Loc) (v : Word) : State :=
  match l with
  | .register r => s.setReg r v
  | .memory addr => s.writeMem addr v
  | .programCounter => s.setPc v
  | .stackPointer => s.setSp v
  | .overflow => s.setO v
  | .immediate _ => s

/-- `resolve` (R103-R112). The trailing word of a form is the word that decoding took from memory at the
place the form would fetch it from (log entry 9). -/
def resolve (op : Operand) (s : State) : Loc × State :=
  match op with
  | .reg r => (.register r, s)
  | .regInd r => (.memory (s.getReg r), s)
  | .regNext r nw => (.memory (nw + s.getReg r), s.takeTrailing)
  | .pop => (.memory s.sp, s.setSp (s.sp + 1))
  | .peek => (.memory s.sp, s)
  | .push => (.memory (s.sp - 1), s.setSp (s.sp - 1))
  | .sp => (.stackPointer, s)
  | .pc => (.programCounter, s)
  | .o => (.overflow, s)
  | .nextInd nw => (.memory nw, s.takeTrailing)
  | .nextLit nw => (.immediate nw, s.takeTrailing)
  | .lit v => (.immediate v, s)

/-- Operands resolved one after another, for what that does to the state (R115, R116). -/
def resolveAll : List Operand → State → State
  | [], s => s
  | op :: rest, s => resolveAll rest (resolve op s).2

/-- A basic instruction's operands after resolution. -/
structure Resolved where
  la : Loc
  lb : Loc
  st : State
  deriving DecidableEq, Repr

/-- R115: operand A first, operand B second. -/
def resolvePair (a b : Operand) (s : State) : Resolved :=
  let ra := resolve a s
  let rb := resolve b ra.2
  { la := ra.1, lb := rb.1, st := rb.2 }

/-- The latched value of A (R118). -/
def Resolved.aVal (r : Resolved) : Word := r.st.readLoc r.la

/-- The latched value of B (R118). -/
def Resolved.bVal (r : Resolved) : Word := r.st.readLoc r.lb

/-- What an instruction computes from the latched values: the word for O and the word for A, each only
if the instruction writes it. -/
structure AluOut where
  o : Option Word
  a : Option Word
  deriving DecidableEq, Repr

/-- O first, A second (41_arith_logic.md R140), so A's value stands when A is O. -/
def State.commit (s : State) (la : Loc) (out : AluOut) : State :=
  let s1 := match out.o with
    | some v => s.setO v
    | none => s
  match out.a with
  | some v => s1.writeLoc la v
  | none => s1

/-- A basic instruction that computes a value: `f` of the latched operands, `cost` cycles. -/
def runAlu (f : Word → Word → AluOut) (cost : Nat) (a b : Operand) (s : State) : State :=
  let r := resolvePair a b s
  (r.st.commit r.la (f r.aVal r.bVal)).charge cost

/-- A comparison (42_conditional.md R170): SKIP, then 2 cycles and one more if SKIP ends up set. -/
def runIf (cond : Word → Word → Bool) (a b : Operand) (s : State) : State :=
  let r := resolvePair a b s
  let skip := skipAfter (cond r.aVal r.bVal)
  (r.st.setSkip skip).charge (2 + skip.toNat)

end Sys2Proof.Machine
end

