-- ==== Sys2Proof/Machine/Arith.lean ====
section
/-! DEFINITION. SET, ADD, SUB, MUL, DIV, MOD, SHL, SHR, AND, BOR, XOR (41_arith_logic.md). For each, the
words it computes from the latched values, and its meaning. -/

namespace Sys2Proof.Machine

abbrev Result := Host.Outcome State Fault Refusal

/-- R141 -/
def aluSet (_ b : Word) : AluOut := { o := none, a := some b }

/-- R142 -/
def aluAdd (a b : Word) : AluOut := { o := some (carryOut a b), a := some (trunc16 (a.toNat + b.toNat)) }

/-- R143: `(a - b) mod 65536` -/
def aluSub (a b : Word) : AluOut :=
  { o := some (borrowOut a b), a := some (trunc16 (a.toNat + 65536 - b.toNat)) }

/-- R144 -/
def aluMul (a b : Word) : AluOut := { o := some (mulHigh a b), a := some (trunc16 (a.toNat * b.toNat)) }

/-- R145: 0 and 0 when b = 0, and no trap (60_exceptions.md R201) -/
def aluDiv (a b : Word) : AluOut :=
  { o := some (divFraction a b), a := some (if b = 0 then 0x0000 else trunc16 (a.toNat / b.toNat)) }

/-- R146: O is not written (90_conflicts.md C1) -/
def aluMod (a b : Word) : AluOut :=
  { o := none, a := some (if b = 0 then 0x0000 else trunc16 (a.toNat % b.toNat)) }

/-- R147 -/
def aluShl (w : ShiftWide) (a b : Word) : AluOut :=
  if shiftIsWide w b then { o := some (Config.shlWide a b).2, a := some (Config.shlWide a b).1 }
  else { o := some (shlOut a b), a := some (trunc16 (a.toNat <<< b.toNat)) }

/-- R148: A is left unmodified (90_conflicts.md C6) -/
def aluShr (w : ShiftWide) (a b : Word) : AluOut :=
  { o := some (if shiftIsWide w b then Config.shrWide a b else shrOut a b), a := none }

/-- R149 -/
def aluAnd (a b : Word) : AluOut := { o := none, a := some (a &&& b) }

/-- R150 -/
def aluBor (a b : Word) : AluOut := { o := none, a := some (a ||| b) }

/-- R151 -/
def aluXor (a b : Word) : AluOut := { o := none, a := some (a ^^^ b) }

/-! ### The meanings, with the costs of 40_execution_loop.md R120 -/

/-- SET (R141) -/
def execSet (a b : Operand) (s : State) : Result := .next (runAlu aluSet 1 a b s)

/-- ADD (R142) -/
def execAdd (a b : Operand) (s : State) : Result := .next (runAlu aluAdd 2 a b s)

/-- SUB (R143) -/
def execSub (a b : Operand) (s : State) : Result := .next (runAlu aluSub 2 a b s)

/-- MUL (R144) -/
def execMul (a b : Operand) (s : State) : Result := .next (runAlu aluMul 2 a b s)

/-- DIV (R145) -/
def execDiv (a b : Operand) (s : State) : Result := .next (runAlu aluDiv 3 a b s)

/-- MOD (R146) -/
def execMod (a b : Operand) (s : State) : Result := .next (runAlu aluMod 3 a b s)

/-- SHL (R147) -/
def execShl (a b : Operand) (s : State) : Result := .next (runAlu (aluShl s.session.shiftWide) 2 a b s)

/-- SHR (R148) -/
def execShr (a b : Operand) (s : State) : Result := .next (runAlu (aluShr s.session.shiftWide) 2 a b s)

/-- AND (R149) -/
def execAnd (a b : Operand) (s : State) : Result := .next (runAlu aluAnd 1 a b s)

/-- BOR (R150) -/
def execBor (a b : Operand) (s : State) : Result := .next (runAlu aluBor 1 a b s)

/-- XOR (R151) -/
def execXor (a b : Operand) (s : State) : Result := .next (runAlu aluXor 1 a b s)

end Sys2Proof.Machine
end

