-- ==== Sys2Proof/Machine/Conditional.lean ====
section
/-! DEFINITION. IFE, IFN, IFG, IFB (42_conditional.md): each condition, and its meaning. -/

namespace Sys2Proof.Machine

/-- R171 -/
def condEqual (a b : Word) : Bool := a == b

/-- R172 -/
def condNotEqual (a b : Word) : Bool := a != b

/-- R173: unsigned -/
def condGreater (a b : Word) : Bool := decide (b.toNat < a.toNat)

/-- R174 -/
def condBits (a b : Word) : Bool := (a &&& b) != 0

/-- IFE (R171) -/
def execIfe (a b : Operand) (s : State) : Result := .next (runIf condEqual a b s)

/-- IFN (R172) -/
def execIfn (a b : Operand) (s : State) : Result := .next (runIf condNotEqual a b s)

/-- IFG (R173) -/
def execIfg (a b : Operand) (s : State) : Result := .next (runIf condGreater a b s)

/-- IFB (R174) -/
def execIfb (a b : Operand) (s : State) : Result := .next (runIf condBits a b s)

end Sys2Proof.Machine
end

