-- ==== Sys2Proof/Machine/HostPort.lean ====
section
/-! DEFINITION. The free replies of the host (10_state.md R36, R37): what a syscall handler and the
inspection hook do is "`any value` unless given" (93_implementation_defined.md U8, U9). They belong to
Config; they stand here because a host action may read the whole state. -/

namespace Sys2Proof

/-- Free value (log entry 3): the reply of the syscall handler numbered `handler` with its opaque `data`
(43_extended.md R188) to host call `n`, made in the given state. -/
opaque Config.syscallReply (n : Nat) (handler : Nat) (data : Nat) (s : Machine.State) : Machine.HostReply

/-- Free value (log entry 4): the reply of the inspection hook to host call `n` (40_execution_loop.md R121). -/
opaque Config.hookReply (n : Nat) (s : Machine.State) : Machine.HostReply

end Sys2Proof
end

