-- ==== Sys2Proof/Machine/Extended.lean ====
section
/-! DEFINITION. JSR, SYS and the undefined extended opcodes (43_extended.md). Each resolves its one
operand B first (R185). -/

namespace Sys2Proof.Machine

/-- JSR (R186): the target is latched before the push; the word pushed is PC after the instruction. -/
def execJsr (b : Operand) (s : State) : Result :=
  let r := resolve b s
  let target := r.2.readLoc r.1
  .next (((r.2.pushWord r.2.pc).setPc target).charge 2)

/-- R188: the first entry of the table with this id, in table order. -/
def syscallEntry (table : List SyscallEntry) (id : Word) : Option SyscallEntry :=
  table.find? (fun e => e.id == id)

/-- A handler's reply taken in: its writes, or no return (60_exceptions.md R213, R188). -/
def afterSyscall (reply : HostReply) (s : State) : Result :=
  match reply with
  | .returns ws => .next (s.countHostCall.hostWrites ws)
  | .blocks => .fault .syscallBlocked

/-- R188: a known id calls its handler, an unknown one has no architectural effect (60_exceptions.md
R202). -/
def syscall (id : Word) (s : State) : Result :=
  match syscallEntry s.session.syscallTable id with
  | some e => afterSyscall (Config.syscallReply s.hostCalls e.handler e.data s) s
  | none => .next s

/-- SYS (R187): id 0 halts, any other id is a syscall; the cycle is charged after the handler. -/
def execSys (b : Operand) (s : State) : Result :=
  let r := resolve b s
  let id := r.2.readLoc r.1
  if id = 0 then .next (r.2.halt.charge 1)
  else
    match syscall id r.2 with
    | .next t => .next (t.charge 1)
    | .fault f => .fault f
    | .refused f => .refused f

/-- R189: an undefined extended opcode, executed. The operand is resolved first; then the fault, which
charges nothing, or under `nop` one cycle. -/
def undefinedExtended (xop : BitVec 6) (b : Operand) (word addr : Word) (s : State) : State :=
  let t := (resolve b s).2
  match s.session.undefExtPolicy with
  | .fault => t.raiseFault (.illegalExtOpcode xop word addr)
  | .nop => t.charge 1

end Sys2Proof.Machine
end

