-- ==== Sys2Proof/Machine/Dispatch.lean ====
section
/-! DEFINITION. The dispatch of 40_execution_loop.md R119: one arm per instruction. It runs with PC past
the instruction word and SKIP clear; the trailing words are taken as the operands are resolved. -/

namespace Sys2Proof.Machine

def exec (i : Instr) (s : State) : Host.Outcome State Fault Refusal :=
  match i with
  | .set a b => Sys2Proof.Machine.execSet a b s
  | .add a b => Sys2Proof.Machine.execAdd a b s
  | .sub a b => Sys2Proof.Machine.execSub a b s
  | .mul a b => Sys2Proof.Machine.execMul a b s
  | .div a b => Sys2Proof.Machine.execDiv a b s
  | .mod a b => Sys2Proof.Machine.execMod a b s
  | .shl a b => Sys2Proof.Machine.execShl a b s
  | .shr a b => Sys2Proof.Machine.execShr a b s
  | .and a b => Sys2Proof.Machine.execAnd a b s
  | .bor a b => Sys2Proof.Machine.execBor a b s
  | .xor a b => Sys2Proof.Machine.execXor a b s
  | .ife a b => Sys2Proof.Machine.execIfe a b s
  | .ifn a b => Sys2Proof.Machine.execIfn a b s
  | .ifg a b => Sys2Proof.Machine.execIfg a b s
  | .ifb a b => Sys2Proof.Machine.execIfb a b s
  | .jsr b => Sys2Proof.Machine.execJsr b s
  | .sys b => Sys2Proof.Machine.execSys b s

end Sys2Proof.Machine
end

