-- ==== Sys2Proof/WellFormed.lean ====
section
/-! DEFINITION. The instructions an encoding exists for. Every form of R74 is legal in every operand
position (30_encoding.md R75, R80); the one thing syntax can hold that no code expresses is an embedded
literal above `LIT_EMBED_MAX` (00_scope.md R6). -/

namespace Sys2Proof

/-- An embedded literal is 0..31 (30_encoding.md R74, R78). -/
def Operand.wellFormed : Operand → Bool
  | .lit v => decide (v.toNat ≤ Config.litEmbedMax)
  | .reg _ => true
  | .regInd _ => true
  | .regNext _ _ => true
  | .pop => true
  | .peek => true
  | .push => true
  | .sp => true
  | .pc => true
  | .o => true
  | .nextInd _ => true
  | .nextLit _ => true

/-- Every operand of the instruction is well formed. -/
def Instr.wellFormed (i : Instr) : Bool := i.operands.all Operand.wellFormed

end Sys2Proof
end

