-- ==== Sys2Proof/Decode.lean ====
section
/-! DEFINITION. The encoding of 30_encoding.md in both directions. The operand-code map (R74) is written
once per direction; decoding takes the first word and the two words that follow it in memory, which is
all an instruction can need (R81). -/

namespace Sys2Proof

/-! ### Registers (R74: 0 A, 1 B, 2 C, 3 X, 4 Y, 5 Z, 6 I, 7 J) -/

def Reg.index : Reg → Nat
  | .A => 0
  | .B => 1
  | .C => 2
  | .X => 3
  | .Y => 4
  | .Z => 5
  | .I => 6
  | .J => 7

/-- The register a code's low three bits name. -/
def Reg.ofIndex (n : BitVec 3) : Reg :=
  match n.toNat with
  | 0 => .A
  | 1 => .B
  | 2 => .C
  | 3 => .X
  | 4 => .Y
  | 5 => .Z
  | 6 => .I
  | _ => .J

/-! ### Operand codes (R74, R76, R78) -/

/-- The form a 6-bit operand code selects, `nw` being its trailing word if it has one (R74). -/
def Operand.ofCode (c : BitVec 6) (nw : Word) : Operand :=
  if c.toNat ≤ 0x07 then .reg (Reg.ofIndex (c.extractLsb' 0 3))
  else if c.toNat ≤ 0x0F then .regInd (Reg.ofIndex (c.extractLsb' 0 3))
  else if c.toNat ≤ 0x17 then .regNext (Reg.ofIndex (c.extractLsb' 0 3)) nw
  else if c.toNat = 0x18 then .pop
  else if c.toNat = 0x19 then .peek
  else if c.toNat = 0x1A then .push
  else if c.toNat = 0x1B then .sp
  else if c.toNat = 0x1C then .pc
  else if c.toNat = 0x1D then .o
  else if c.toNat = 0x1E then .nextInd nw
  else if c.toNat = 0x1F then .nextLit nw
  else .lit (trunc16 (c.toNat - 0x20))

/-- The code of a form (R74). -/
def Operand.code : Operand → BitVec 6
  | .reg r => BitVec.ofNat 6 r.index
  | .regInd r => BitVec.ofNat 6 (0x08 + r.index)
  | .regNext r _ => BitVec.ofNat 6 (0x10 + r.index)
  | .pop => 0x18
  | .peek => 0x19
  | .push => 0x1A
  | .sp => 0x1B
  | .pc => 0x1C
  | .o => 0x1D
  | .nextInd _ => 0x1E
  | .nextLit _ => 0x1F
  | .lit v => BitVec.ofNat 6 (0x20 + v.toNat)

/-- R76: "An operand 'has a trailing word' iff it is one of: a register+next-word form, the literal
next-word form, or the indirect next-word form". -/
def hasTrailingWord (c : BitVec 6) : Bool :=
  decide (0x10 ≤ c.toNat ∧ c.toNat ≤ 0x17) || c == 0x1E || c == 0x1F

/-- The trailing word an operand is emitted with (R88): none or one. -/
def Operand.trailing : Operand → List Word
  | .regNext _ nw => [nw]
  | .nextInd nw => [nw]
  | .nextLit nw => [nw]
  | .reg _ => []
  | .regInd _ => []
  | .pop => []
  | .peek => []
  | .push => []
  | .sp => []
  | .pc => []
  | .o => []
  | .lit _ => []

/-! ### Words (R70, R71) -/

/-- `op = w[3:0]` -/
def opField (w : Word) : BitVec 4 := w.extractLsb' 0 4

/-- `fa = w[9:4]`; the extended opcode `xop` when `op = 0` -/
def aField (w : Word) : BitVec 6 := w.extractLsb' 4 6

/-- `fb = w[15:10]` -/
def bField (w : Word) : BitVec 6 := w.extractLsb' 10 6

/-- `w = (fb << 10) | (fa << 4) | op` -/
def instrWord (op : BitVec 4) (fa fb : BitVec 6) : Word := fb ++ fa ++ op

/-- The length in words, from the first word alone (R76). -/
def wordLength (w : Word) : Nat :=
  if opField w != 0 then 1 + (hasTrailingWord (aField w)).toNat + (hasTrailingWord (bField w)).toNat
  else 1 + (hasTrailingWord (bField w)).toNat

/-! ### Decoding (R72, R73, R77, R81) -/

/-- The extended instructions (R73), `sx` being the session's `sysExtOpcode`. -/
def decodeExtended (sx xop : BitVec 6) (b : Operand) : Decoded :=
  if xop = Config.jsrExtOpcode then .instr (.jsr b)
  else if xop = sx then .instr (.sys b)
  else .undefinedExt xop b

/-- The basic opcodes 0x1..0xF (R72); `op` is not 0 here, and the last arm is 0xF. -/
def decodeBasic (op : BitVec 4) (a b : Operand) : Instr :=
  match op.toNat with
  | 0x1 => .set a b
  | 0x2 => .add a b
  | 0x3 => .sub a b
  | 0x4 => .mul a b
  | 0x5 => .div a b
  | 0x6 => .mod a b
  | 0x7 => .shl a b
  | 0x8 => .shr a b
  | 0x9 => .and a b
  | 0xA => .bor a b
  | 0xB => .xor a b
  | 0xC => .ife a b
  | 0xD => .ifn a b
  | 0xE => .ifg a b
  | _ => .ifb a b

/-- The instruction whose first word is `w` and which the words `n1`, `n2` follow. Operand A takes the
first trailing word and operand B the next one (R77); the A field of an extended instruction never
takes one (R71). -/
def decode (sx : BitVec 6) (w n1 n2 : Word) : Decoded :=
  if opField w = 0 then decodeExtended sx (aField w) (Operand.ofCode (bField w) n1)
  else
    .instr (decodeBasic (opField w) (Operand.ofCode (aField w) n1)
      (Operand.ofCode (bField w) (if hasTrailingWord (aField w) then n2 else n1)))

/-! ### Encoding (R70-R73, R88) -/

/-- The instruction word of a basic instruction, then the trailing words in operand order. -/
def encodeBasic (op : BitVec 4) (a b : Operand) : List Word :=
  instrWord op a.code b.code :: (a.trailing ++ b.trailing)

/-- The instruction word of an extended instruction, then its operand's trailing word. -/
def encodeExtended (xop : BitVec 6) (b : Operand) : List Word :=
  instrWord 0 xop b.code :: b.trailing

/-- The words of an instruction, in memory order. -/
def encode (sx : BitVec 6) : Instr → List Word
  | .set a b => encodeBasic 0x1 a b
  | .add a b => encodeBasic 0x2 a b
  | .sub a b => encodeBasic 0x3 a b
  | .mul a b => encodeBasic 0x4 a b
  | .div a b => encodeBasic 0x5 a b
  | .mod a b => encodeBasic 0x6 a b
  | .shl a b => encodeBasic 0x7 a b
  | .shr a b => encodeBasic 0x8 a b
  | .and a b => encodeBasic 0x9 a b
  | .bor a b => encodeBasic 0xA a b
  | .xor a b => encodeBasic 0xB a b
  | .ife a b => encodeBasic 0xC a b
  | .ifn a b => encodeBasic 0xD a b
  | .ifg a b => encodeBasic 0xE a b
  | .ifb a b => encodeBasic 0xF a b
  | .jsr b => encodeExtended Config.jsrExtOpcode b
  | .sys b => encodeExtended sx b

/-! ### The host's view of the decoder -/

/-- Word `k` of an instruction whose bits are `w`, as spec/opcode_table.json numbers them: the first
word is bits 15..0. -/
def tableWord (nbits w k : Nat) : Word := trunc16 ((w % 2 ^ nbits) >>> (16 * k))

/-- The instruction the decoder reads from `nbits` bits `w`, every bit above them being 0; `none` for
an undefined extended instruction. The table's SYS row is that of the default `sysExtOpcode`. -/
def decodeTableWord (nbits w : Nat) : Option Instr :=
  match decode Config.sysExtOpcode (tableWord nbits w 0) (tableWord nbits w 1) (tableWord nbits w 2) with
  | .instr i => some i
  | .undefinedExt _ _ => none

end Sys2Proof
end

