-- ==== Sys2Proof/Machine/Sequencer.lean ====
section
/-! DEFINITION. The course of one step (40_execution_loop.md R113-R119, R123), over the dispatch that
Machine/Step.lean puts in. -/

namespace Sys2Proof.Machine

/-- Word `k` of the instruction at PC, read from memory only if the instruction word says it has that many
(30_encoding.md R76); the 0 that stands for a word it does not have reaches no operand. Addresses wrap
(20_memory.md R53). -/
def fetchWord (s : State) (k : Nat) : Word :=
  if k < wordLength (s.readMem s.pc) then s.readMem (s.pc + BitVec.ofNat 16 k) else 0

/-- What the words at PC decode to (R113, R114). The trailing words, 0, 1 or 2 of them (20_memory.md R55), are
read with the instruction word (log entry 9). -/
def fetchDecode (s : State) : Decoded :=
  decode s.session.sysExtOpcode (s.readMem s.pc) (fetchWord s 1) (fetchWord s 2)

/-- Past the instruction word; no cycle is charged for it (R113). -/
def afterFetch (s : State) : State := s.setPc (s.pc + 1)

/-- R116: a skipped step. The operands are resolved, SKIP is cleared, and under `discard` SP gets back its
value from before resolution. -/
def skipped (d : Decoded) (s : State) : State :=
  let t := (resolveAll d.operands s).setSkip false
  match s.session.skipStackEffect with
  | .discard => t.setSp s.sp
  | .apply => t

/-- An executed step (R119): the dispatch, or the rule for undefined extended opcodes. `s` is the state
before the fetch. -/
def executed (dispatch : Instr → State → Result) (d : Decoded) (s : State) : Result :=
  match d with
  | .instr i => dispatch i (afterFetch s)
  | .undefinedExt xop b => .next (undefinedExtended xop b (s.readMem s.pc) s.pc (afterFetch s))

/-- R117, and R123: a core that is halted or faulted takes no step and stays as it is (R127: "absorbing
until reset"; log entry 8). -/
def stepWith (dispatch : Instr → State → Result) (s : State) : Result :=
  match s.status with
  | .run =>
    if s.skip then .next (skipped (fetchDecode s) (afterFetch s))
    else executed dispatch (fetchDecode s) s
  | .halted => .next s
  | .faulted _ => .next s

/-- Words stored one after another from an address on. -/
def State.storeWords (s : State) (addr : Word) : List Word → State
  | [] => s
  | w :: ws => (s.writeMem addr w).storeWords (addr + 1) ws

end Sys2Proof.Machine
end

