-- ==== Sys2Proof/Machine/Step.lean ====
section
/-! DEFINITION. The machine's step, `step()` of 40_execution_loop.md R117. The hook belongs to the batch
loop (R122, Machine/Batch.lean). -/

namespace Sys2Proof.Machine

def step (s : State) : Host.Outcome State Fault Refusal := stepWith exec s

/-- `s` with the instruction whose bits are `w` (as spec/opcode_table.json numbers them, those above
`nbits` zero) at the program counter: three words, the longest an instruction can be (R6). Nothing else is
changed (log entry 10). -/
def State.withFetchWord (s : State) (nbits w : Nat) : State :=
  s.storeWords s.pc [tableWord nbits w 0, tableWord nbits w 1, tableWord nbits w 2]

end Sys2Proof.Machine
end

