-- ==== Sys2Proof/Machine/Accesses.lean ====
section
/-! DEFINITION. The memory accesses of a step, in order (20_memory.md R55; 40_execution_loop.md R117, R118). The
accesses of a syscall handler are the host's and not the core's (20_memory.md R62), so SYS lists its own only. -/

namespace Sys2Proof.Machine

/-- One access: a whole word at a word address (R51). -/
inductive Access where
  | read (addr : Word)
  | write (addr : Word)
  deriving DecidableEq, Repr

/-- R55: "For a location `Memory(addr)`, each operand value the handler latches is 1 read". -/
def Loc.reads : Loc → List Access
  | .memory addr => [.read addr]
  | .register _ => []
  | .programCounter => []
  | .stackPointer => []
  | .overflow => []
  | .immediate _ => []

/-- R55: "A written A operand is 1 write." -/
def Loc.writes : Loc → List Access
  | .memory addr => [.write addr]
  | .register _ => []
  | .programCounter => []
  | .stackPointer => []
  | .overflow => []
  | .immediate _ => []

/-- R55: one read of the instruction word at PC, and one per trailing word. -/
def fetchAccesses (s : State) : List Access :=
  (List.range (wordLength (s.readMem s.pc))).map (fun k => .read (s.pc + BitVec.ofNat 16 k))

/-- A basic instruction's accesses after resolution: the latched values of A (where A's value is used) and of B,
then the write of A (40_execution_loop.md R118). -/
def basicAccesses (latchesA writesA : Bool) (a b : Operand) (s : State) : List Access :=
  let r := resolvePair a b s
  (if latchesA then r.la.reads else []) ++ (r.lb.reads ++ (if writesA then r.la.writes else []))

/-- The accesses of an executed instruction's handler, `s` being the state `exec` is given. SET does not latch A
(41_arith_logic.md R141), and SHR and the comparisons do not write it (R148; 42_conditional.md R170). -/
def execAccesses (i : Instr) (s : State) : List Access :=
  match i with
  | .set a b => basicAccesses false true a b s
  | .add a b => basicAccesses true true a b s
  | .sub a b => basicAccesses true true a b s
  | .mul a b => basicAccesses true true a b s
  | .div a b => basicAccesses true true a b s
  | .mod a b => basicAccesses true true a b s
  | .shl a b => basicAccesses true true a b s
  | .shr a b => basicAccesses true false a b s
  | .and a b => basicAccesses true true a b s
  | .bor a b => basicAccesses true true a b s
  | .xor a b => basicAccesses true true a b s
  | .ife a b => basicAccesses true false a b s
  | .ifn a b => basicAccesses true false a b s
  | .ifg a b => basicAccesses true false a b s
  | .ifb a b => basicAccesses true false a b s
  | .jsr b => (resolve b s).1.reads ++ [.write ((resolve b s).2.sp - 1)]
  | .sys b => (resolve b s).1.reads

/-- The accesses of one step: "A skipped instruction makes only the instruction-word read and its trailing-word
reads" (R55), an undefined extended one latches nothing (43_extended.md R189), and a core that is not running
makes none (40_execution_loop.md R123). -/
def stepAccesses (s : State) : List Access :=
  match s.status with
  | .run =>
    fetchAccesses s ++
      (if s.skip then []
      else
        match fetchDecode s with
        | .instr i => execAccesses i (afterFetch s)
        | .undefinedExt _ _ => [])
  | .halted => []
  | .faulted _ => []

end Sys2Proof.Machine
end

