-- ==== Sys2Proof/Machine/Image.lean ====
section
/-! DEFINITION. The memory image and its load (10_state.md R34; 20_memory.md R52; 70_reset_and_hazards.md
R221, R222). -/

namespace Sys2Proof.Machine

/-- One word of the file from its two bytes in file order (R52). -/
def imageWord (order : ImageByteOrder) (first second : Byte) : Word :=
  match order with
  | .lowFirst => second ++ first
  | .highFirst => first ++ second

/-- The words of a file; `none` for a final odd byte. -/
def imageWords (order : ImageByteOrder) : List Byte → Option (List Word)
  | [] => some []
  | [_] => none
  | x :: y :: rest => (imageWords order rest).map (fun ws => imageWord order x y :: ws)

/-- One cell, if it is not what an unlisted cell reads as. -/
def cellIfNonzero (n : Nat) (v : Byte) : Memory := if v = 0 then [] else [(n, v)]

/-- Memory that holds the words from word address `k` on, and 0 elsewhere. -/
def Memory.ofWords (k : Nat) : List Word → Memory
  | [] => []
  | w :: ws =>
    cellIfNonzero (2 * k) (lowByte w) ++ (cellIfNonzero (2 * k + 1) (highByte w) ++ Memory.ofWords (k + 1) ws)

/-- `load(image)` (R222): word k to `mem[k]`, every other word 0. An odd or overlong image is refused
(93_implementation_defined.md U10, log entry 12). -/
def load (order : ImageByteOrder) (bytes : List Byte) (s : State) : Host.Outcome State Fault Refusal :=
  match imageWords order bytes with
  | none => .refused .oddByteTail
  | some ws =>
    if ws.length ≤ Config.memWords then .next { s with mem := Memory.ofWords 0 ws }
    else .refused .imageOverflow

/-- A saved image: the words in address order, less the "trailing all-zero words beyond the highest
nonzero word" (R222). -/
def trimImage (ws : List Word) : List Word := (ws.reverse.dropWhile (fun w => w == 0)).reverse

/-- All of memory as words, in address order. -/
def Memory.toWords (m : Memory) : List Word :=
  (List.range Config.memWords).map (fun k => m.readWord (trunc16 k))

/-- Boot (R221): reset under the host's parameters, then the load. `execute` comes next. -/
def boot (c : Session) (order : ImageByteOrder) (bytes : List Byte) : Host.Outcome State Fault Refusal :=
  load order bytes (State.resetWith c)

end Sys2Proof.Machine
end

