-- ==== Sys2Proof/Machine/Assembler.lean ====
section
/-! DEFINITION. The assembler's notation, as far as it fixes how instructions are spelled and encoded
(00_scope.md R4; 30_encoding.md R84-R90). The tokenizer, the label table and the file directives are outside
(00_scope.md R5). What 92_eei_decisions.md D25 leaves open is an argument (log entry 15). -/

namespace Sys2Proof.Machine

/-- One token of a source line. -/
abbrev Token := List Char

/-- The open points of D25: `numLiteral` reads a numeric literal, `relative` strips "a recognized relative
marker", `charCode` is the word of a string's character. -/
structure AsmSyntax where
  numLiteral : Token → Option Nat
  relative : Token → Option Token
  charCode : Char → Word

/-- The fatal errors of the assembler that concern an instruction (R84, R87, R89). -/
inductive AsmError where
  | unknownMnemonic | arity | literalRange | unresolvedLabel
  deriving DecidableEq, Repr

/-- What stands where a word is wanted: a number, or a label reference, absolute or relative (R89). -/
inductive AsmValue where
  | num (n : Nat)
  | label (isRelative : Bool) (name : Token)
  deriving DecidableEq, Repr

/-- A classified operand (R87): a form without a trailing word, or one whose trailing word is a value. -/
inductive AsmOperand where
  | plain (op : Operand)
  | regNext (r : Reg) (v : AsmValue)
  | nextInd (v : AsmValue)
  | nextLit (v : AsmValue)
  deriving DecidableEq, Repr

/-! ### Spelling (R84, R85, R86) -/

def lowerCase (t : Token) : Token := t.map Char.toLower

/-- R85: the register letters `a b c x y z i j`, of either case. -/
def regOfToken (t : Token) : Option Reg :=
  match lowerCase t with
  | ['a'] => some .A
  | ['b'] => some .B
  | ['c'] => some .C
  | ['x'] => some .X
  | ['y'] => some .Y
  | ['z'] => some .Z
  | ['i'] => some .I
  | ['j'] => some .J
  | _ => none

/-- R86 and R85: the stack pseudo-operands, then the specials (steps 1 and 2 of R87). -/
def specialOfToken (t : Token) : Option Operand :=
  match lowerCase t with
  | ['p', 'o', 'p'] => some .pop
  | ['[', 's', 'p', '+', '+', ']'] => some .pop
  | ['p', 'e', 'e', 'k'] => some .peek
  | ['[', 's', 'p', ']'] => some .peek
  | ['p', 'u', 's', 'h'] => some .push
  | ['[', '-', '-', 's', 'p', ']'] => some .push
  | ['s', 'p'] => some .sp
  | ['p', 'c'] => some .pc
  | ['o'] => some .o
  | _ => none

/-- R84: an instruction of a mnemonic and its operands. Basic ones take exactly two, extended ones exactly
one; mnemonics are matched case-insensitively (R83). -/
def instrOfTokens (mnemonic : Token) (ops : List Operand) : Except AsmError Instr :=
  let basic (f : Operand → Operand → Instr) : Except AsmError Instr :=
    match ops with
    | [a, b] => .ok (f a b)
    | _ => .error .arity
  let extended (f : Operand → Instr) : Except AsmError Instr :=
    match ops with
    | [b] => .ok (f b)
    | _ => .error .arity
  match lowerCase mnemonic with
  | ['s', 'e', 't'] => basic .set
  | ['a', 'd', 'd'] => basic .add
  | ['s', 'u', 'b'] => basic .sub
  | ['m', 'u', 'l'] => basic .mul
  | ['d', 'i', 'v'] => basic .div
  | ['m', 'o', 'd'] => basic .mod
  | ['s', 'h', 'l'] => basic .shl
  | ['s', 'h', 'r'] => basic .shr
  | ['a', 'n', 'd'] => basic .and
  | ['b', 'o', 'r'] => basic .bor
  | ['x', 'o', 'r'] => basic .xor
  | ['i', 'f', 'e'] => basic .ife
  | ['i', 'f', 'n'] => basic .ifn
  | ['i', 'f', 'g'] => basic .ifg
  | ['i', 'f', 'b'] => basic .ifb
  | ['j', 's', 'r'] => extended .jsr
  | ['s', 'y', 's'] => extended .sys
  | _ => .error .unknownMnemonic

/-! ### Classification (R87) -/

/-- The inside of a token in square brackets. -/
def unbracket (t : Token) : Option Token :=
  match t with
  | '[' :: rest => if rest.getLast? = some ']' then some rest.dropLast else none
  | _ => none

/-- The two sides of the first `+` in a token. -/
def splitPlus : Token → Option (Token × Token)
  | [] => none
  | '+' :: rest => some ([], rest)
  | c :: rest => (splitPlus rest).map (fun p => (c :: p.1, p.2))

/-- "parsed as a numeric literal or, failing that, treated as a label"; labels keep their case (R85). -/
def valueOfToken (syn : AsmSyntax) (t : Token) : AsmValue :=
  match syn.numLiteral t with
  | some n => .num n
  | none =>
    match syn.relative t with
    | some name => .label true name
    | none => .label false t

/-- Step 3: `[X+R]` or `[R+X]`, R being the side that is a register. -/
def classifySum (syn : AsmSyntax) (inside : Token) : Option AsmOperand :=
  match splitPlus inside with
  | none => none
  | some (l, r) =>
    match regOfToken r with
    | some q => some (.regNext q (valueOfToken syn l))
    | none =>
      match regOfToken l with
      | some q => some (.regNext q (valueOfToken syn r))
      | none => none

/-- Step 4: `[X]`. -/
def classifyIndirect (syn : AsmSyntax) (inside : Token) : AsmOperand :=
  match regOfToken inside with
  | some q => .plain (.regInd q)
  | none => .nextInd (valueOfToken syn inside)

/-- Steps 5 to 7: a bare token. Numbers 0..31 are embedded, 32..65535 take the next word, larger ones are
an error; a label always takes the next word. -/
def classifyBare (syn : AsmSyntax) (t : Token) : Except AsmError AsmOperand :=
  match syn.numLiteral t with
  | some n =>
    if n ≤ Config.litEmbedMax then .ok (.plain (.lit (trunc16 n)))
    else if n < 65536 then .ok (.nextLit (.num n))
    else .error .literalRange
  | none =>
    match regOfToken t with
    | some q => .ok (.plain (.reg q))
    | none => .ok (.nextLit (valueOfToken syn t))

/-- R87, in the parser's precedence order. -/
def classify (syn : AsmSyntax) (t : Token) : Except AsmError AsmOperand :=
  match specialOfToken t with
  | some op => .ok (.plain op)
  | none =>
    match unbracket t with
    | some inside =>
      match classifySum syn inside with
      | some op => .ok op
      | none => .ok (classifyIndirect syn inside)
    | none => classifyBare syn t

/-! ### Label values and emission (R88, R89) -/

/-- R89: `trunc16(label.address - siteInstructionAddress - 1)`. -/
def relativePatch (labelAddr site : Word) : Word := labelAddr - site - 1

/-- The trailing word of a value in the instruction at `site`. -/
def patchValue (labels : Token → Option Word) (site : Word) (v : AsmValue) : Except AsmError Word :=
  match v with
  | .num n => if n < 65536 then .ok (trunc16 n) else .error .literalRange
  | .label isRelative name =>
    match labels name with
    | none => .error .unresolvedLabel
    | some addr => .ok (if isRelative then relativePatch addr site else addr)

/-- The operand once its label is known. -/
def patchOperand (labels : Token → Option Word) (site : Word) (op : AsmOperand) : Except AsmError Operand :=
  match op with
  | .plain q => .ok q
  | .regNext r v => (patchValue labels site v).map (Operand.regNext r)
  | .nextInd v => (patchValue labels site v).map Operand.nextInd
  | .nextLit v => (patchValue labels site v).map Operand.nextLit

/-- The operands of an instruction from their tokens. -/
def operandsOfTokens (syn : AsmSyntax) (labels : Token → Option Word) (site : Word) :
    List Token → Except AsmError (List Operand)
  | [] => .ok []
  | t :: ts =>
    match classify syn t with
    | .error e => .error e
    | .ok q =>
      match patchOperand labels site q with
      | .error e => .error e
      | .ok op => (operandsOfTokens syn labels site ts).map (op :: ·)

/-- The words of one instruction line at address `site` (R88). -/
def assembleInstr (syn : AsmSyntax) (labels : Token → Option Word) (sx : BitVec 6) (site : Word)
    (mnemonic : Token) (ops : List Token) : Except AsmError (List Word) :=
  match operandsOfTokens syn labels site ops with
  | .error e => .error e
  | .ok qs => (instrOfTokens mnemonic qs).map (encode sx)

/-! ### Data and placement (R90) -/

/-- One item of `DAT`: a number, or a quoted string, one word per character. -/
inductive DatItem where
  | word (v : Word)
  | str (s : Token)
  deriving DecidableEq, Repr

/-- The directives that move the write cursor or write words. -/
inductive Directive where
  | org (addr : Nat)
  | reserve (n : Nat)
  | fill (n : Nat) (v : Word)
  | dat (items : List DatItem)
  | incbin (order : ImageByteOrder) (bytes : List Byte)
  deriving DecidableEq, Repr

def DatItem.words (syn : AsmSyntax) : DatItem → List Word
  | .word v => [v]
  | .str s => s.map syn.charCode

/-- The cursor a directive writes at, and the words it writes there; the next cursor is the one behind them.
`.RESERVE` moves the cursor "without writing". For `.INCBIN` of a file with an odd number of bytes the spec gives
no result, and `none`, the model's choice, stands for no placement (log entry 22). -/
def placeDirective (syn : AsmSyntax) (cursor : Nat) : Directive → Option (Nat × List Word)
  | .org addr => some (addr, [])
  | .reserve n => some (cursor + n, [])
  | .fill n v => some (cursor, List.replicate n v)
  | .dat items => some (cursor, items.flatMap (DatItem.words syn))
  | .incbin order bytes => (imageWords order bytes).map (fun ws => (cursor, ws))

end Sys2Proof.Machine
end

