-- ==== Sys2Proof/Machine/Batch.lean ====
section
/-! DEFINITION. The batch controller and the inspection hook (40_execution_loop.md R121, R122, R125). The hook is called here and not in `step` (log entry 18). -/

namespace Sys2Proof.Machine

/-- The hook's reply taken in. -/
def afterHook (reply : HostReply) (s : State) : Result :=
  match reply with
  | .returns ws => .next (s.countHostCall.hostWrites ws)
  | .blocks => .fault .hookBlocked

/-- R121: the hook runs before each step, if present; it writes R, SP, PC, O and memory and charges no
cycle. -/
def callHook (s : State) : Result :=
  if s.session.hookPresent then afterHook (Config.hookReply s.hostCalls s) s else .next s

/-- The loop of R122, for at most `fuel` steps. It ends when the status is not RUN or the budget is spent,
and answers whether execution should continue. -/
def batchLoop (start budget : Nat) : Nat → State → Host.Outcome (State × Bool) Fault Refusal
  | fuel, s =>
    if s.status = .run ∧ s.cyc - start < budget then
      match fuel with
      | 0 => .fault .batchBound
      | n + 1 =>
        match callHook s with
        | .next h =>
          match step h with
          | .next t => batchLoop start budget n t
          | .fault f => .fault f
          | .refused f => .refused f
        | .fault f => .fault f
        | .refused f => .refused f
    else .next (s, decide (s.status = .run))

/-- `execute(budget)` (R122). A batch of budget n runs at most 2n + 1 steps (R124), which is its fuel
(log entry 11). -/
def execute (budget : Nat) (s : State) : Host.Outcome (State × Bool) Fault Refusal :=
  batchLoop s.cyc budget (2 * budget + 1) s

end Sys2Proof.Machine
end

