-- ==== Sys2Proof/Safety.lean ====
section
/-! DEFINITION. The terms the claims use: the invariant of the machine, what a clean run is, and the cost
table of 70_reset_and_hazards.md R230. -/

namespace Sys2Proof.Machine

/-- The record of a fault describes an undefined extended instruction (60_exceptions.md R204;
43_extended.md R189): `word` has opcode 0 and carries `xop`, which is neither JSR's nor SYS's. -/
def FaultCause.describes (c : FaultCause) (cfg : Session) : Bool :=
  match c with
  | .illegalExtOpcode xop word _ =>
    opField word == 0 && aField word == xop && xop != Config.jsrExtOpcode && xop != cfg.sysExtOpcode

/-- A fault, if any, is one the session's policy raises, and its record is right. -/
def State.statusOk (s : State) : Bool :=
  match s.status with
  | .run => true
  | .halted => true
  | .faulted c => c.describes s.session && s.session.undefExtPolicy == .fault

/-- The invariant: memory is in its canonical form, the session's parameters are ones R7 admits, and the
status is one the machine can reach. -/
def State.inv (s : State) : Bool := s.mem.wf && s.session.wf && s.statusOk

/-- A run has not gone wrong: the status is not FAULTED (10_state.md R27). -/
def State.clean (s : State) : Bool :=
  match s.status with
  | .run => true
  | .halted => true
  | .faulted _ => false

/-- `tw` of R76 on operands: 1 for a form with a trailing word, else 0. -/
def trailingCount (ops : List Operand) : Nat := (ops.map (fun q => q.trailing.length)).sum

/-- The handler costs of 40_execution_loop.md R120; `skip` is the SKIP the comparison ends with. -/
def handlerCost (i : Instr) (skip : Bool) : Nat :=
  match i with
  | .set _ _ => 1
  | .add _ _ => 2
  | .sub _ _ => 2
  | .mul _ _ => 2
  | .div _ _ => 3
  | .mod _ _ => 3
  | .shl _ _ => 2
  | .shr _ _ => 2
  | .and _ _ => 1
  | .bor _ _ => 1
  | .xor _ _ => 1
  | .ife _ _ => 2 + skip.toNat
  | .ifn _ _ => 2 + skip.toNat
  | .ifg _ _ => 2 + skip.toNat
  | .ifb _ _ => 2 + skip.toNat
  | .jsr _ => 2
  | .sys _ => 1

/-! ### Encodings -/

/-- Opcode `op` is that of the basic instruction `mk`: operand A has the code in bits 9:4 and takes the first
trailing word, operand B the code in bits 15:10 and the next one (30_encoding.md R70, R72, R77). -/
def BasicOpcode (op : BitVec 4) (mk : Operand → Operand → Instr) : Prop :=
  ∀ (sx : BitVec 6) (w n1 n2 : Word), opField w = op →
    decode sx w n1 n2 = .instr (mk (Operand.ofCode (aField w) n1)
      (Operand.ofCode (bField w) (if hasTrailingWord (aField w) then n2 else n1)))

/-! ### Frames -/

/-- Every memory cell outside the word at `addr`, if a location is one, reads in `t` as in `s`. -/
def CellsKeptOutside (l : Loc) (s t : State) : Prop :=
  ∀ n : Nat, (∀ addr : Word, l = .memory addr → n ≠ 2 * addr.toNat ∧ n ≠ 2 * addr.toNat + 1) →
    t.mem.readByte n = s.mem.readByte n

/-- `t` is `s` but for the location `l`, O and CYC. -/
def KeptOutside (l : Loc) (s t : State) : Prop :=
  (∀ q : Reg, l ≠ .register q → t.regs.get q = s.regs.get q) ∧
  (l ≠ .stackPointer → t.sp = s.sp) ∧
  (l ≠ .programCounter → t.pc = s.pc) ∧
  CellsKeptOutside l s t ∧
  t.skip = s.skip ∧ t.status = s.status ∧ t.session = s.session ∧ t.hostCalls = s.hostCalls

/-- SYS with operand `b` in state `s` has a nonzero id that is in the syscall table (43_extended.md R188). -/
def CallsHandler (b : Operand) (s : State) : Prop :=
  (resolve b s).2.readLoc (resolve b s).1 ≠ 0 ∧
  ∃ e ∈ s.session.syscallTable, e.id = (resolve b s).2.readLoc (resolve b s).1

/-- The location can be written (40_execution_loop.md R102). -/
def Loc.writable : Loc → Prop
  | .immediate _ => False
  | .register _ => True
  | .memory _ => True
  | .programCounter => True
  | .stackPointer => True
  | .overflow => True

/-- The instructions that write O from a computation (10_state.md R25). -/
def overflowWriters : List (Operand → Operand → Instr) :=
  [.add, .sub, .mul, .div, .shl, .shr]

/-- The instructions that write their A operand (10_state.md R22). -/
def operandWriters : List (Operand → Operand → Instr) :=
  [.set, .add, .sub, .mul, .div, .mod, .shl, .and, .bor, .xor]

/-- The comparisons (42_conditional.md). -/
def comparisons : List (Operand → Operand → Instr) := [.ife, .ifn, .ifg, .ifb]

end Sys2Proof.Machine
end

