-- ==== Sys2Proof/Certificates/Slice0/Obligations.lean ====
section
/-! DEFINITION. The statements for the provers, from the numbered rules of spec/. In a statement about an
instruction `s` is the state `exec` is given: PC past the instruction word, SKIP clear. `r.st` is that state
after operand resolution and `r.aVal`, `r.bVal` are the latched values (40_execution_loop.md R118). -/

open Sys2Proof Sys2Proof.Machine

/-! ### Encoding -/

/-- Decoding the words of a well-formed instruction, whatever words follow them in memory, gives the
instruction (30_encoding.md R81, R88). `sx` is any `sysExtOpcode` but JSR's (00_scope.md R7). -/
def Obligations.DecodeInvertsEncode : Prop :=
  ∀ (sx : BitVec 6) (i : Instr) (after : List Word), sx ≠ Config.jsrExtOpcode → i.wellFormed = true →
    decode sx ((encode sx i ++ after).getD 0 0) ((encode sx i ++ after).getD 1 0)
      ((encode sx i ++ after).getD 2 0) = .instr i

/-- Every decoded instruction is well formed, and encoding it gives back exactly its words (R76, R77, R88). -/
def Obligations.EncodeInvertsDecode : Prop :=
  ∀ (sx : BitVec 6) (w n1 n2 : Word) (i : Instr), sx ≠ Config.jsrExtOpcode → decode sx w n1 n2 = .instr i →
    i.wellFormed = true ∧ encode sx i = [w, n1, n2].take (wordLength w)

/-- R70, R71, R72, R73: the places of the three fields, the fifteen basic opcodes with their two operand
codes, and the extended opcodes with their one; every other extended opcode is undefined. -/
def Obligations.OpcodeMap : Prop :=
  (∀ w : Word, w.toNat = (bField w).toNat * 1024 + (aField w).toNat * 16 + (opField w).toNat) ∧
  (BasicOpcode 0x1 .set ∧ BasicOpcode 0x2 .add ∧ BasicOpcode 0x3 .sub ∧ BasicOpcode 0x4 .mul ∧
    BasicOpcode 0x5 .div ∧ BasicOpcode 0x6 .mod ∧ BasicOpcode 0x7 .shl ∧ BasicOpcode 0x8 .shr ∧
    BasicOpcode 0x9 .and ∧ BasicOpcode 0xA .bor ∧ BasicOpcode 0xB .xor ∧ BasicOpcode 0xC .ife ∧
    BasicOpcode 0xD .ifn ∧ BasicOpcode 0xE .ifg ∧ BasicOpcode 0xF .ifb) ∧
  ∀ (sx : BitVec 6) (w n1 n2 : Word), opField w = 0 → sx ≠ 0x01 →
    decode sx w n1 n2 =
      (if aField w = 0x01 then .instr (.jsr (Operand.ofCode (bField w) n1))
      else if aField w = sx then .instr (.sys (Operand.ofCode (bField w) n1))
      else .undefinedExt (aField w) (Operand.ofCode (bField w) n1))

/-- The trailing-word predicate, and the length of an instruction from its first word alone (30_encoding.md R76).
The bounds of 3 and 2 words are the spec's own inference: "A basic instruction is 1, 2 or 3 words long, and an
extended instruction 1 or 2 [derived: from the formula]" (R76). -/
def Obligations.LengthFromFirstWord : Prop :=
  (∀ c : BitVec 6, hasTrailingWord c = true ↔
    (0x10 ≤ c.toNat ∧ c.toNat ≤ 0x17) ∨ c.toNat = 0x1E ∨ c.toNat = 0x1F) ∧
  ∀ (sx : BitVec 6) (w n1 n2 : Word),
    1 + trailingCount (decode sx w n1 n2).operands =
      (if opField w ≠ 0 then 1 + (if hasTrailingWord (aField w) then 1 else 0) +
        (if hasTrailingWord (bField w) then 1 else 0)
      else 1 + (if hasTrailingWord (bField w) then 1 else 0)) ∧
    (opField w ≠ 0 → 1 + trailingCount (decode sx w n1 n2).operands ≤ 3) ∧
    (opField w = 0 → 1 + trailingCount (decode sx w n1 n2).operands ≤ 2)

/-- The form each of the 64 operand codes selects, with the value it assembles (30_encoding.md R74, R78): "So
every operand code selects a form, and no operand code is reserved or illegal" (R75, the spec's inference). -/
def Obligations.OperandCodeMap : Prop :=
  ∀ (c : BitVec 6) (nw : Word),
    (c.toNat ≤ 0x07 → ∃ r : Reg, r.index = c.toNat ∧ Operand.ofCode c nw = .reg r) ∧
    (0x08 ≤ c.toNat ∧ c.toNat ≤ 0x0F → ∃ r : Reg, 0x08 + r.index = c.toNat ∧ Operand.ofCode c nw = .regInd r) ∧
    (0x10 ≤ c.toNat ∧ c.toNat ≤ 0x17 →
      ∃ r : Reg, 0x10 + r.index = c.toNat ∧ Operand.ofCode c nw = .regNext r nw) ∧
    (c.toNat = 0x18 → Operand.ofCode c nw = .pop) ∧
    (c.toNat = 0x19 → Operand.ofCode c nw = .peek) ∧
    (c.toNat = 0x1A → Operand.ofCode c nw = .push) ∧
    (c.toNat = 0x1B → Operand.ofCode c nw = .sp) ∧
    (c.toNat = 0x1C → Operand.ofCode c nw = .pc) ∧
    (c.toNat = 0x1D → Operand.ofCode c nw = .o) ∧
    (c.toNat = 0x1E → Operand.ofCode c nw = .nextInd nw) ∧
    (c.toNat = 0x1F → Operand.ofCode c nw = .nextLit nw) ∧
    (0x20 ≤ c.toNat → ∃ v : Word, v.toNat = c.toNat - 0x20 ∧ Operand.ofCode c nw = .lit v)

/-- Words the spec writes out in its examples decode to the instructions it gives them (one per family). -/
def Obligations.SpecExampleWordsDecode : Prop :=
  decode 0x02 0x7C01 0x0030 0 = .instr (.set (.reg .A) (.nextLit 0x0030)) ∧
  decode 0x02 0x7803 0x1000 0 = .instr (.sub (.reg .A) (.nextInd 0x1000)) ∧
  decode 0x02 0x9037 0 0 = .instr (.shl (.reg .X) (.lit 4)) ∧
  decode 0x02 0x7DDF 0x8000 0 = .instr (.ifb .o (.nextLit 0x8000)) ∧
  decode 0x02 0x7C10 0x0018 0 = .instr (.jsr (.nextLit 0x0018)) ∧
  decode 0x02 0x8020 0 0 = .instr (.sys (.lit 0)) ∧
  decode 0x02 0x0000 0 0 = .undefinedExt 0x00 (.reg .A)

/-! ### Locations and operand resolution -/

/-- R101, R102: what each location reads as, and what writing it does; a write to an Immediate changes
nothing. -/
def Obligations.LocationsReadAndWrite : Prop :=
  ∀ (s : State) (i : Reg) (addr v : Word),
    s.readLoc (.register i) = s.regs.get i ∧ s.readLoc (.memory addr) = s.readMem addr ∧
    s.readLoc .programCounter = s.pc ∧ s.readLoc .stackPointer = s.sp ∧ s.readLoc .overflow = s.o ∧
    s.readLoc (.immediate v) = v ∧
    s.writeLoc (.register i) v = { s with regs := s.regs.set i v } ∧
    s.writeLoc (.memory addr) v = { s with mem := s.mem.writeWord addr v } ∧
    s.writeLoc .programCounter v = { s with pc := v } ∧
    s.writeLoc .stackPointer v = { s with sp := v } ∧
    s.writeLoc .overflow v = { s with o := v } ∧
    s.writeLoc (.immediate addr) v = s

/-- The location and the state each operand form resolves to (40_execution_loop.md R103-R112). In the forms with a
trailing word the word comes with the operand: that decoding took it from the place the form fetches it from
is the model's inference, notes/assumptions/9.md, and Obligations.TrailingWordsAreReadAtPc. -/
def Obligations.OperandResolution : Prop :=
  ∀ (s : State) (i : Reg) (nw v : Word),
    resolve (.reg i) s = (.register i, s) ∧
    resolve (.regInd i) s = (.memory (s.regs.get i), s) ∧
    resolve (.regNext i nw) s =
      (.memory (nw + s.regs.get i), { s with pc := s.pc + 1, cyc := s.cyc + 1 }) ∧
    resolve .pop s = (.memory s.sp, { s with sp := s.sp + 1 }) ∧
    resolve .peek s = (.memory s.sp, s) ∧
    resolve .push s = (.memory (s.sp - 1), { s with sp := s.sp - 1 }) ∧
    resolve .sp s = (.stackPointer, s) ∧
    resolve .pc s = (.programCounter, s) ∧
    resolve .o s = (.overflow, s) ∧
    resolve (.nextInd nw) s = (.memory nw, { s with pc := s.pc + 1, cyc := s.cyc + 1 }) ∧
    resolve (.nextLit nw) s = (.immediate nw, { s with pc := s.pc + 1, cyc := s.cyc + 1 }) ∧
    resolve (.lit v) s = (.immediate v, s)

/-- R104, R77: each trailing word a step decodes is the word at PC when resolution reaches its operand, A's
before B's, and taking it advances PC and CYC by one. -/
def Obligations.TrailingWordsAreReadAtPc : Prop :=
  ∀ s : State,
    (∀ a b : Operand, (fetchDecode s).operands = [a, b] →
      (a.trailing = [] ∨ a.trailing = [s.readMem (afterFetch s).pc]) ∧
      (b.trailing = [] ∨ b.trailing = [s.readMem (resolve a (afterFetch s)).2.pc])) ∧
    (∀ b : Operand, (fetchDecode s).operands = [b] →
      b.trailing = [] ∨ b.trailing = [s.readMem (afterFetch s).pc]) ∧
    ∀ (q : Operand) (t : State),
      (resolve q t).2.pc = t.pc + BitVec.ofNat 16 q.trailing.length ∧
      (resolve q t).2.cyc = t.cyc + q.trailing.length

/-- Examples of R115, R118 and R226 for every state: `SET PUSH, POP` copies a word onto itself and leaves SP;
`SET PUSH, SP` pushes SP as the push left it; `SET SP, POP` leaves the popped word in SP. -/
def Obligations.EvaluationOrderExamples : Prop :=
  ∀ s : State,
    (∃ t, exec (.set .push .pop) s = .next t ∧ t.sp = s.sp ∧ (∀ n, t.mem.readByte n = s.mem.readByte n)) ∧
    (∃ t, exec (.set .push .sp) s = .next t ∧ t.sp = s.sp - 1 ∧ t.readMem (s.sp - 1) = s.sp - 1) ∧
    (∃ t, exec (.set .sp .pop) s = .next t ∧ t.sp = s.readMem s.sp)

/-! ### The step -/

/-- R113, R114, R117, R119: when the words at PC decode to an instruction and no skip is pending, a step of a
running core is `exec` of it with PC past the instruction word. -/
def Obligations.StepRunsDecodedInstruction : Prop :=
  ∀ (s : State) (i : Instr), s.status = .run → s.skip = false →
    decode s.session.sysExtOpcode (s.readMem s.pc) (s.readMem (s.pc + 1)) (s.readMem (s.pc + 2)) = .instr i →
    step s = exec i { s with pc := s.pc + 1 }

/-- R116: a step with a skip pending passes the whole instruction, charges its trailing words, clears SKIP,
runs no handler, and restores SP under `discard`. -/
def Obligations.SkippedStepDiscardsInstruction : Prop :=
  ∀ s : State, s.status = .run → s.skip = true →
    step s = .next { s with
      pc := s.pc + BitVec.ofNat 16 (wordLength (s.readMem s.pc))
      cyc := s.cyc + (wordLength (s.readMem s.pc) - 1)
      sp := if s.session.skipStackEffect = .discard then s.sp
        else (resolveAll (fetchDecode s).operands { s with pc := s.pc + 1 }).sp
      skip := false }

/-- The model's choice for R27 and R123 (notes/assumptions/8.md): a step of a core that is not running leaves
every piece of state as it is. -/
def Obligations.StoppedCoreStays : Prop :=
  ∀ s : State, s.status ≠ .run → step s = .next s

/-- R189, R203: an executed undefined extended instruction resolves its operand, then faults with its record
and no other change, or under `nop` charges one cycle; a skipped one does not fault. -/
def Obligations.UndefinedExtendedOpcode : Prop :=
  ∀ s : State, s.status = .run → opField (s.readMem s.pc) = 0 →
    aField (s.readMem s.pc) ≠ 0x01 → aField (s.readMem s.pc) ≠ s.session.sysExtOpcode →
    ∃ b : Operand, b = Operand.ofCode (bField (s.readMem s.pc)) (s.readMem (s.pc + 1)) ∧
      (s.skip = false → s.session.undefExtPolicy = .fault →
        step s = .next { (resolve b { s with pc := s.pc + 1 }).2 with
          status := .faulted (.illegalExtOpcode (aField (s.readMem s.pc)) (s.readMem s.pc) s.pc) }) ∧
      (s.skip = false → s.session.undefExtPolicy = .nop →
        step s = .next { (resolve b { s with pc := s.pc + 1 }).2 with
          cyc := (resolve b { s with pc := s.pc + 1 }).2.cyc + 1 }) ∧
      (s.skip = true → ∃ t, step s = .next t ∧ t.status = .run ∧ t.skip = false)

/-! ### Instructions that compute a value -/

/-- R141 -/
def Obligations.SetCopiesB : Prop :=
  BasicOpcode 0x1 .set ∧ ∀ (a b : Operand) (s : State), let r := resolvePair a b s
    ∃ t, exec (.set a b) s = .next t ∧
      (r.la.writable → t.readLoc r.la = r.bVal) ∧
      (r.la ≠ .overflow → t.o = r.st.o) ∧
      t.cyc = r.st.cyc + 1 ∧ KeptOutside r.la r.st t

/-- R142 -/
def Obligations.AddWritesSumAndCarry : Prop :=
  BasicOpcode 0x2 .add ∧ ∀ (a b : Operand) (s : State), let r := resolvePair a b s
    ∃ t, exec (.add a b) s = .next t ∧
      (r.la.writable → (t.readLoc r.la).toNat = (r.aVal.toNat + r.bVal.toNat) % 65536) ∧
      (r.la ≠ .overflow → t.o = if r.aVal.toNat + r.bVal.toNat > 0xFFFF then 0x0001 else 0x0000) ∧
      t.cyc = r.st.cyc + 2 ∧ KeptOutside r.la r.st t

/-- R143 -/
def Obligations.SubWritesDifferenceAndBorrow : Prop :=
  BasicOpcode 0x3 .sub ∧ ∀ (a b : Operand) (s : State), let r := resolvePair a b s
    ∃ t, exec (.sub a b) s = .next t ∧
      (r.la.writable → ((t.readLoc r.la).toNat : Int) = ((r.aVal.toNat : Int) - r.bVal.toNat) % 65536) ∧
      (r.la ≠ .overflow → t.o = if r.aVal.toNat < r.bVal.toNat then 0x0001 else 0x0000) ∧
      t.cyc = r.st.cyc + 2 ∧ KeptOutside r.la r.st t

/-- R144 -/
def Obligations.MulWritesBothHalves : Prop :=
  BasicOpcode 0x4 .mul ∧ ∀ (a b : Operand) (s : State), let r := resolvePair a b s
    ∃ t, exec (.mul a b) s = .next t ∧
      (r.la.writable → (t.readLoc r.la).toNat = r.aVal.toNat * r.bVal.toNat % 65536) ∧
      (r.la ≠ .overflow → t.o.toNat = r.aVal.toNat * r.bVal.toNat / 65536) ∧
      t.cyc = r.st.cyc + 2 ∧ KeptOutside r.la r.st t

/-- R145; 60_exceptions.md R201 for b = 0 -/
def Obligations.DivWritesQuotientAndFraction : Prop :=
  BasicOpcode 0x5 .div ∧ ∀ (a b : Operand) (s : State), let r := resolvePair a b s
    ∃ t, exec (.div a b) s = .next t ∧
      (r.la.writable → (t.readLoc r.la).toNat = if r.bVal = 0 then 0 else r.aVal.toNat / r.bVal.toNat) ∧
      (r.la ≠ .overflow → t.o.toNat =
        if r.bVal = 0 then 0 else r.aVal.toNat * 65536 / r.bVal.toNat % 65536) ∧
      t.cyc = r.st.cyc + 3 ∧ KeptOutside r.la r.st t

/-- R146: O is not written -/
def Obligations.ModWritesRemainder : Prop :=
  BasicOpcode 0x6 .mod ∧ ∀ (a b : Operand) (s : State), let r := resolvePair a b s
    ∃ t, exec (.mod a b) s = .next t ∧
      (r.la.writable → (t.readLoc r.la).toNat = if r.bVal = 0 then 0 else r.aVal.toNat % r.bVal.toNat) ∧
      (r.la ≠ .overflow → t.o = r.st.o) ∧
      t.cyc = r.st.cyc + 3 ∧ KeptOutside r.la r.st t

/-- R201: DIV and MOD with a latched 0 complete like any other instruction. They write what R145 and R146 say, charge
their cycles, and change nothing else: no fault, no halt, PC at the next instruction unless PC is A. -/
def Obligations.DivisionByZeroCompletes : Prop :=
  ∀ (a b : Operand) (s : State), let r := resolvePair a b s
    r.bVal = 0 →
    (∃ t, exec (.div a b) s = .next t ∧ (r.la.writable → t.readLoc r.la = 0) ∧ t.o = 0 ∧
      t.cyc = r.st.cyc + 3 ∧ KeptOutside r.la r.st t) ∧
    (∃ t, exec (.mod a b) s = .next t ∧ (r.la.writable → t.readLoc r.la = 0) ∧
      (r.la ≠ .overflow → t.o = r.st.o) ∧ t.cyc = r.st.cyc + 3 ∧ KeptOutside r.la r.st t)

/-- R147: the exact shift, and for a count of 32 or more under another `shiftWide` the free result of
notes/assumptions/6.md. -/
def Obligations.ShlWritesShiftAndOverflow : Prop :=
  BasicOpcode 0x7 .shl ∧ ∀ (a b : Operand) (s : State), let r := resolvePair a b s
    ∃ t, exec (.shl a b) s = .next t ∧
      (if s.session.shiftWide = .mathematical ∨ r.bVal.toNat < 32 then
        (r.la.writable → (t.readLoc r.la).toNat = r.aVal.toNat * 2 ^ r.bVal.toNat % 65536) ∧
        (r.la ≠ .overflow → t.o.toNat = r.aVal.toNat * 2 ^ r.bVal.toNat / 65536 % 65536)
      else
        (r.la.writable → t.readLoc r.la = (Config.shlWide r.aVal r.bVal).1) ∧
        (r.la ≠ .overflow → t.o = (Config.shlWide r.aVal r.bVal).2)) ∧
      t.cyc = r.st.cyc + 2 ∧ KeptOutside r.la r.st t

/-- R148: only O and CYC change; A is left unmodified. -/
def Obligations.ShrWritesOnlyOverflow : Prop :=
  BasicOpcode 0x8 .shr ∧ ∀ (a b : Operand) (s : State), let r := resolvePair a b s
    ∃ v : Word, exec (.shr a b) s = .next { r.st with o := v, cyc := r.st.cyc + 2 } ∧
      (if s.session.shiftWide = .mathematical ∨ r.bVal.toNat < 32 then
        v.toNat = r.aVal.toNat * 65536 / 2 ^ r.bVal.toNat % 65536
      else v = Config.shrWide r.aVal r.bVal)

/-- R149, R150, R151 -/
def Obligations.BitwiseWriteResult : Prop :=
  BasicOpcode 0x9 .and ∧ BasicOpcode 0xA .bor ∧ BasicOpcode 0xB .xor ∧
  ∀ (a b : Operand) (s : State), let r := resolvePair a b s
    (∃ t, exec (.and a b) s = .next t ∧ (r.la.writable → t.readLoc r.la = r.aVal &&& r.bVal) ∧
      (r.la ≠ .overflow → t.o = r.st.o) ∧ t.cyc = r.st.cyc + 1 ∧ KeptOutside r.la r.st t) ∧
    (∃ t, exec (.bor a b) s = .next t ∧ (r.la.writable → t.readLoc r.la = r.aVal ||| r.bVal) ∧
      (r.la ≠ .overflow → t.o = r.st.o) ∧ t.cyc = r.st.cyc + 1 ∧ KeptOutside r.la r.st t) ∧
    (∃ t, exec (.xor a b) s = .next t ∧ (r.la.writable → t.readLoc r.la = r.aVal ^^^ r.bVal) ∧
      (r.la ≠ .overflow → t.o = r.st.o) ∧ t.cyc = r.st.cyc + 1 ∧ KeptOutside r.la r.st t)

/-- R80: a literal destination is legal; the instruction runs, nothing but O, CYC and what resolution moves
can change, and the trailing word of a next-word literal is consumed and charged. -/
def Obligations.LiteralDestinationDiscardsResult : Prop :=
  ∀ mk ∈ operandWriters, ∀ (a b : Operand) (s : State),
    ((∃ v, a = .lit v) ∨ ∃ nw, a = .nextLit nw) →
    ∃ t, exec (mk a b) s = .next t ∧ t.regs = s.regs ∧ t.mem = s.mem ∧
      t.sp = (resolveAll [a, b] s).sp ∧ t.skip = s.skip ∧ t.status = s.status ∧
      t.pc = s.pc + BitVec.ofNat 16 (a.trailing.length + b.trailing.length) ∧
      t.cyc = s.cyc + (a.trailing.length + b.trailing.length) + handlerCost (mk a b) s.skip

/-- R140: when A is O itself, the result stands in O, not the overflow value. -/
def Obligations.ResultWinsWhenAIsOverflow : Prop :=
  ∀ (b : Operand) (s : State), let r := resolvePair .o b s
    (∃ t, exec (.add .o b) s = .next t ∧ t.o.toNat = (s.o.toNat + r.bVal.toNat) % 65536) ∧
    (∃ t, exec (.sub .o b) s = .next t ∧ t.o.toNat = (s.o.toNat + 65536 - r.bVal.toNat) % 65536) ∧
    (∃ t, exec (.mul .o b) s = .next t ∧ t.o.toNat = s.o.toNat * r.bVal.toNat % 65536) ∧
    (∃ t, exec (.div .o b) s = .next t ∧
      t.o.toNat = if r.bVal = 0 then 0 else s.o.toNat / r.bVal.toNat) ∧
    (s.session.shiftWide = .mathematical →
      ∃ t, exec (.shl .o b) s = .next t ∧ t.o.toNat = s.o.toNat * 2 ^ r.bVal.toNat % 65536)

/-- R152: MUL is exact across O and A, and DIV and MOD of the same operands recompose them. -/
def Obligations.ArithmeticLaws : Prop :=
  ∀ (a b : Operand) (s : State), let r := resolvePair a b s
    r.la.writable → r.la ≠ .overflow →
    (∃ t, exec (.mul a b) s = .next t ∧
      t.o.toNat * 65536 + (t.readLoc r.la).toNat = r.aVal.toNat * r.bVal.toNat) ∧
    (r.bVal ≠ 0 → ∃ t u, exec (.div a b) s = .next t ∧ exec (.mod a b) s = .next u ∧
      r.aVal.toNat = r.bVal.toNat * (t.readLoc r.la).toNat + (u.readLoc r.la).toNat ∧
      (u.readLoc r.la).toNat < r.bVal.toNat)

/-- Frame of the eleven instructions SET, ADD, SUB, MUL, DIV, MOD, SHL, SHR, AND, BOR, XOR, from the state
they are given: every register but a destination, SP but as destination or by POP and PUSH, every cell of
memory but a destination's, O but as destination or by the six of R25, and SKIP, status and the session. -/
def Obligations.ComputingFrame : Prop :=
  ∀ mk ∈ Instr.shr :: operandWriters, ∀ (a b : Operand) (s t : State), exec (mk a b) s = .next t →
    (∀ q : Reg, a ≠ .reg q → t.regs.get q = s.regs.get q) ∧
    (a ≠ .sp → a ≠ .pop → a ≠ .push → b ≠ .pop → b ≠ .push → t.sp = s.sp) ∧
    (a ≠ .o → (∀ f ∈ overflowWriters, mk a b ≠ f a b) → t.o = s.o) ∧
    CellsKeptOutside (resolve a s).1 s t ∧
    t.skip = s.skip ∧ t.status = s.status ∧ t.session = s.session ∧ t.hostCalls = s.hostCalls

/-! ### Comparisons -/

/-- R170-R174: SKIP is the negation of the condition on the latched values, the cost is 2 plus 1 if SKIP ends
up set, and nothing else changes but what resolution moves. -/
def Obligations.ComparisonsSetSkip : Prop :=
  BasicOpcode 0xC .ife ∧ BasicOpcode 0xD .ifn ∧ BasicOpcode 0xE .ifg ∧ BasicOpcode 0xF .ifb ∧
  ∀ (a b : Operand) (s : State), let r := resolvePair a b s
    exec (.ife a b) s = .next { r.st with
      skip := decide (r.aVal ≠ r.bVal)
      cyc := r.st.cyc + (if r.aVal = r.bVal then 2 else 3) } ∧
    exec (.ifn a b) s = .next { r.st with
      skip := decide (r.aVal = r.bVal)
      cyc := r.st.cyc + (if r.aVal ≠ r.bVal then 2 else 3) } ∧
    exec (.ifg a b) s = .next { r.st with
      skip := decide (r.aVal.toNat ≤ r.bVal.toNat)
      cyc := r.st.cyc + (if r.aVal.toNat > r.bVal.toNat then 2 else 3) } ∧
    exec (.ifb a b) s = .next { r.st with
      skip := decide (r.aVal &&& r.bVal = 0)
      cyc := r.st.cyc + (if r.aVal &&& r.bVal ≠ 0 then 2 else 3) }

/-- Frame of IFE, IFN, IFG, IFB: no register, no cell of memory, not O, not status; SP only by POP or PUSH. -/
def Obligations.ComparisonFrame : Prop :=
  ∀ mk ∈ comparisons, ∀ (a b : Operand) (s t : State), exec (mk a b) s = .next t →
    (∀ q : Reg, t.regs.get q = s.regs.get q) ∧
    (a ≠ .pop → a ≠ .push → b ≠ .pop → b ≠ .push → t.sp = s.sp) ∧
    t.o = s.o ∧ (∀ n, t.mem.readByte n = s.mem.readByte n) ∧
    t.status = s.status ∧ t.session = s.session ∧ t.hostCalls = s.hostCalls

/-! ### JSR and SYS -/

/-- R186: the target is latched first; the word pushed is PC after the instruction; frame included. -/
def Obligations.JsrPushesReturnAddress : Prop :=
  (∀ (sx : BitVec 6) (w n1 n2 : Word), opField w = 0 → aField w = 0x01 →
    decode sx w n1 n2 = .instr (.jsr (Operand.ofCode (bField w) n1))) ∧
  ∀ (b : Operand) (s : State), let st := (resolve b s).2
    ∃ t, exec (.jsr b) s = .next t ∧
      t.pc = st.readLoc (resolve b s).1 ∧ t.sp = st.sp - 1 ∧ t.readMem (st.sp - 1) = st.pc ∧
      t.cyc = st.cyc + 2 ∧
      t.regs = s.regs ∧ t.o = s.o ∧ CellsKeptOutside (.memory (st.sp - 1)) s t ∧
      t.skip = s.skip ∧ t.status = s.status ∧ t.session = s.session ∧ t.hostCalls = s.hostCalls

/-- R186, R141: after a JSR, `SET PC, POP` returns to the instruction after the JSR and gives SP back. -/
def Obligations.JsrThenSetPcPopReturns : Prop :=
  ∀ (b : Operand) (s : State), ∃ t u, exec (.jsr b) s = .next t ∧
    exec (.set .pc .pop) { t with pc := t.pc + 1 } = .next u ∧
    u.pc = (resolve b s).2.pc ∧ u.sp = (resolve b s).2.sp ∧ u.regs = s.regs ∧ u.o = s.o

/-- SYS by the latched operand value (43_extended.md R187, R188; 60_exceptions.md R202). 0 halts and keeps all
other state; a value without an entry in the table has no effect; any other calls the first entry with it in
table order, on the state with the operand resolved. Each charges one cycle, after the handler. In the clause of
the handler three things are the model's choice: the reply is free, some writes or no return
(notes/assumptions/3.md); the count of host calls goes up (notes/assumptions/5.md); and a handler that never
returns, where the spec's run is stuck, is the fault `syscallBlocked` (notes/assumptions/7.md). -/
def Obligations.SysHaltsOrCallsHandler : Prop :=
  (∀ (sx : BitVec 6) (w n1 n2 : Word), opField w = 0 → sx ≠ 0x01 → aField w = sx →
    decode sx w n1 n2 = .instr (.sys (Operand.ofCode (bField w) n1))) ∧
  ∀ (b : Operand) (s : State), let st := (resolve b s).2
    let id := st.readLoc (resolve b s).1
    (id = 0 → exec (.sys b) s = .next { st with status := .halted, cyc := st.cyc + 1 }) ∧
    (id ≠ 0 → (∀ e ∈ s.session.syscallTable, e.id ≠ id) →
      exec (.sys b) s = .next { st with cyc := st.cyc + 1 }) ∧
    (id ≠ 0 → ∀ (before after : List SyscallEntry) (e : SyscallEntry),
      s.session.syscallTable = before ++ e :: after → (∀ d ∈ before, d.id ≠ id) → e.id = id →
      exec (.sys b) s = match Config.syscallReply st.hostCalls e.handler e.data st with
        | .returns ws => .next ((({ st with hostCalls := st.hostCalls + 1 } : State).hostWrites ws).charge 1)
        | .blocks => .fault .syscallBlocked)

/-- R213, R39: whatever the handler does, SYS writes neither SKIP nor the session, writes the status only to
halt on 0, and charges its trailing word and one cycle. -/
def Obligations.SysFrame : Prop :=
  ∀ (b : Operand) (s t : State), exec (.sys b) s = .next t →
    t.skip = s.skip ∧ t.session = s.session ∧ t.cyc = s.cyc + b.trailing.length + 1 ∧
    ((resolve b s).2.readLoc (resolve b s).1 ≠ 0 → t.status = s.status) ∧
    ((∀ e ∈ s.session.syscallTable, e.id ≠ (resolve b s).2.readLoc (resolve b s).1) →
      t.regs = s.regs ∧ t.o = s.o ∧ t.pc = (resolve b s).2.pc ∧ t.sp = (resolve b s).2.sp ∧
      (∀ n, t.mem.readByte n = s.mem.readByte n))

/-! ### Reset, memory and image -/

/-- The value of every piece of state after reset, the same from any state, under the host's parameters. The
values are the spec's own decision D11 (10_state.md R32, 70_reset_and_hazards.md R220; notes/assumptions/13.md);
and no write through the host's port clears SKIP, status or CYC. The value of `hostCalls`, the model's own
field, is left out. -/
def Obligations.ResetValues : Prop :=
  (∀ r : Reg, State.reset.regs.get r = 0) ∧ State.reset.sp = 0 ∧ State.reset.pc = 0 ∧ State.reset.o = 0 ∧
  State.reset.skip = false ∧ State.reset.status = .run ∧ State.reset.cyc = 0 ∧
  (∀ a : Word, State.reset.readMem a = 0) ∧
  ∀ s : State, (∀ r : Reg, s.hardReset.regs.get r = 0) ∧ s.hardReset.sp = 0 ∧ s.hardReset.pc = 0 ∧
    s.hardReset.o = 0 ∧ s.hardReset.skip = false ∧ s.hardReset.status = .run ∧ s.hardReset.cyc = 0 ∧
    (∀ a : Word, s.hardReset.readMem a = 0) ∧
    (∀ ws, (s.hostWrites ws).skip = s.skip ∧ (s.hostWrites ws).status = s.status ∧ (s.hostWrites ws).cyc = s.cyc)

/-- The representation of memory (notes/assumptions/1.md) is canonical: memories whose every word reads alike
are equal. -/
def Obligations.CanonicalMemoriesAreEqual : Prop :=
  ∀ m n : Memory, m.wf = true → n.wf = true → (∀ a : Word, m.readWord a = n.readWord a) → m = n

/-- R63: a word written anywhere by any earlier write is seen by the next fetch of an instruction word or of a
trailing word. -/
def Obligations.FetchSeesEarlierWrite : Prop :=
  ∀ (s : State) (x w : Word) (i : Instr), s.status = .run → s.skip = false →
    let seen : Word → Word := fun a => if a = x then w else s.readMem a
    decode s.session.sysExtOpcode (seen s.pc) (seen (s.pc + 1)) (seen (s.pc + 2)) = .instr i →
    step (s.writeMem x w) = exec i { s.writeMem x w with pc := s.pc + 1 }

/-- Word k of the image, in its byte order, goes to `mem[k]`; every other word is 0, and no other state changes
(70_reset_and_hazards.md R222). Loading an image without its trailing zero words gives the same memory (R222, the
spec's inference from the zero-fill). That the memory is in its canonical form is about the model's representation,
notes/assumptions/1.md. -/
def Obligations.LoadPlacesImageWords : Prop :=
  (∀ ws : List Word, Memory.ofWords 0 (trimImage ws) = Memory.ofWords 0 ws) ∧
  ∀ (order : ImageByteOrder) (bytes : List Byte) (s : State), bytes.length % 2 = 0 →
    bytes.length ≤ 131072 →
    ∃ t, load order bytes s = .next t ∧ t = { s with mem := t.mem } ∧ t.mem.wf = true ∧
      ∀ a : Word, t.readMem a =
        if 2 * a.toNat + 1 < bytes.length then
          (match order with
          | .lowFirst => bytes.getD (2 * a.toNat + 1) 0 ++ bytes.getD (2 * a.toNat) 0
          | .highFirst => bytes.getD (2 * a.toNat) 0 ++ bytes.getD (2 * a.toNat + 1) 0)
        else 0

/-- 93_implementation_defined.md U10: an odd image and one of more than 65536 words are refused by name. -/
def Obligations.LoadRefusesBadImages : Prop :=
  ∀ (order : ImageByteOrder) (bytes : List Byte) (s : State),
    (bytes.length % 2 = 1 → load order bytes s = .refused .oddByteTail) ∧
    (bytes.length % 2 = 0 → 131072 < bytes.length → load order bytes s = .refused .imageOverflow)

/-! ### Batches and the host -/

/-- R123: a core that is not running runs no step and no hook; only reset makes it run again: no host write
and no load does. -/
def Obligations.ExecuteOfStoppedCore : Prop :=
  ∀ s : State, s.status ≠ .run →
    (∀ n, execute n s = .next (s, false)) ∧
    (∀ ws, (s.hostWrites ws).status = s.status) ∧
    (∀ order bytes t, load order bytes s = .next t → t.status = s.status) ∧
    s.hardReset.status = .run

/-- R122: a batch that answers has run until the status left RUN or the budget was spent, and answers whether
the status is RUN; `execute(0)` runs nothing. -/
def Obligations.ExecuteEndsOnlyWhenDone : Prop :=
  (∀ (n : Nat) (s t : State) (c : Bool), execute n s = .next (t, c) →
    c = decide (t.status = .run) ∧ (t.status = .run → s.cyc + n ≤ t.cyc)) ∧
  ∀ s : State, execute 0 s = .next (s, decide (s.status = .run))

/-- R124: a batch of budget n needs at most 2n + 1 steps, so the model's bound is never met. -/
def Obligations.ExecuteNeverRunsOutOfSteps : Prop :=
  ∀ (n : Nat) (s : State), execute n s ≠ .fault .batchBound

/-- R228: a batch overshoots its budget by less than the 5 cycles of the dearest instruction. -/
def Obligations.ExecuteOvershootsByLessThanFive : Prop :=
  ∀ (n : Nat) (s t : State) (c : Bool), execute n s = .next (t, c) → t.cyc < s.cyc + n + 5

/-- R121, R35: the hook writes neither SKIP, status, CYC nor the session, and charges nothing. -/
def Obligations.HookFrame : Prop :=
  ∀ s t : State, callHook s = .next t →
    t.skip = s.skip ∧ t.status = s.status ∧ t.cyc = s.cyc ∧ t.session = s.session ∧
    (s.session.hookPresent = false → t = s)

/-! ### Rules of the whole machine -/

/-- Every step keeps the invariant: memory stays canonical, the session's parameters stay admissible, and a
fault's record describes an undefined extended instruction. -/
def Obligations.StepKeepsInvariant : Prop :=
  ∀ s t : State, s.inv = true → step s = .next t → t.inv = true

/-- The invariant holds at reset, under any admissible parameters. -/
def Obligations.ResetMeetsInvariant : Prop :=
  State.reset.inv = true ∧ ∀ c : Session, c.wf = true → (State.resetWith c).inv = true

/-- R28: CYC never decreases, and (R120, R230) a step charges exactly its trailing words plus, if it
executes a defined instruction, the handler's cost. -/
def Obligations.StepChargesTheCostTable : Prop :=
  ∀ s t : State, step s = .next t →
    t.cyc = s.cyc +
      (if s.status = .run then
        trailingCount (fetchDecode s).operands +
          (if s.skip then 0
          else match fetchDecode s with
            | .instr i => handlerCost i t.skip
            | .undefinedExt _ _ => if s.session.undefExtPolicy = .nop then 1 else 0)
      else 0)

/-- R124: an executed step charges at least one cycle or faults, a skipped one clears SKIP, and so two steps
that leave the core running charge at least one cycle. -/
def Obligations.TwoStepsMakeProgress : Prop :=
  ∀ s t : State, s.status = .run → step s = .next t →
    (s.skip = false → s.cyc < t.cyc ∨ ∃ c, t.status = .faulted c) ∧
    (s.skip = true → t.skip = false) ∧
    ∀ u : State, t.status = .run → step t = .next u → u.status = .run → s.cyc < u.cyc

/-- R26: only a comparison that fails leaves SKIP set, and every step with SKIP set clears it. -/
def Obligations.OnlyComparisonsSetSkip : Prop :=
  ∀ s t : State, s.status = .run → step s = .next t → t.skip = true →
    s.skip = false ∧ ∃ mk ∈ comparisons, ∃ a b, fetchDecode s = .instr (mk a b)

/-- R27, R204: the status leaves RUN only by an executed `SYS` whose operand value is 0, to HALTED, or by an
executed undefined extended instruction under `fault`, to FAULTED. -/
def Obligations.StatusLeavesRunOnlyBySysOrFault : Prop :=
  ∀ s t : State, s.status = .run → step s = .next t → t.status ≠ .run →
    s.skip = false ∧
    ((t.status = .halted ∧ ∃ b, fetchDecode s = .instr (.sys b) ∧
      (resolve b (afterFetch s)).2.readLoc (resolve b (afterFetch s)).1 = 0) ∨
    (s.session.undefExtPolicy = .fault ∧ ∃ xop b, fetchDecode s = .undefinedExt xop b ∧
      t.status = .faulted (.illegalExtOpcode xop (s.readMem s.pc) s.pc)))

/-- R30: no step changes the session's parameters. -/
def Obligations.StepKeepsSession : Prop :=
  ∀ s t : State, step s = .next t → t.session = s.session

/-- R22: a step changes a general register only as the A operand of an executed instruction that writes A, or
through a syscall handler. -/
def Obligations.RegisterWriters : Prop :=
  ∀ (s t : State) (q : Reg), step s = .next t → t.regs.get q ≠ s.regs.get q →
    s.status = .run ∧ s.skip = false ∧
    ((∃ mk ∈ operandWriters, ∃ b, fetchDecode s = .instr (mk (.reg q) b)) ∨
    (∃ b, fetchDecode s = .instr (.sys b) ∧ CallsHandler b (afterFetch s)))

/-- R23: a step changes SP only by a PUSH or POP operand (in a skipped step only under `apply`), by an executed
instruction that writes its A operand SP, by JSR, or through a syscall handler. -/
def Obligations.StackPointerWriters : Prop :=
  ∀ s t : State, step s = .next t → t.sp ≠ s.sp →
    s.status = .run ∧
    ((∃ q ∈ (fetchDecode s).operands, (q = .push ∨ q = .pop) ∧
      (s.skip = true → s.session.skipStackEffect = .apply)) ∨
    (s.skip = false ∧
      ((∃ mk ∈ operandWriters, ∃ b, fetchDecode s = .instr (mk .sp b)) ∨
      (∃ b, fetchDecode s = .instr (.jsr b)) ∨
      (∃ b, fetchDecode s = .instr (.sys b) ∧ CallsHandler b (afterFetch s)))))

/-- R25: a step changes O only by one of the six instructions that compute it, by an instruction that writes
its A operand O, or through a syscall handler. -/
def Obligations.OverflowWritersAreR25 : Prop :=
  ∀ s t : State, step s = .next t → t.o ≠ s.o →
    s.status = .run ∧ s.skip = false ∧
    ((∃ mk ∈ overflowWriters, ∃ a b, fetchDecode s = .instr (mk a b)) ∨
    (∃ mk ∈ operandWriters, ∃ b, fetchDecode s = .instr (mk .o b)) ∨
    (∃ b, fetchDecode s = .instr (.sys b) ∧ CallsHandler b (afterFetch s)))

/-- R39, R55: a step changes the word at an address only as the A operand of an executed instruction that
writes A, as the slot JSR pushes to, or through a syscall handler. -/
def Obligations.MemoryWriters : Prop :=
  ∀ (s t : State) (x : Word), step s = .next t → t.readMem x ≠ s.readMem x →
    s.status = .run ∧ s.skip = false ∧
    ((∃ mk ∈ operandWriters, ∃ a b, fetchDecode s = .instr (mk a b) ∧
      (resolve a (afterFetch s)).1 = .memory x) ∨
    (∃ b, fetchDecode s = .instr (.jsr b) ∧ x = (resolve b (afterFetch s)).2.sp - 1) ∨
    (∃ b, fetchDecode s = .instr (.sys b) ∧ CallsHandler b (afterFetch s)))

/-- The accesses of a step (20_memory.md R55, the spec's inference from its other rules). `stepAccesses` begins with
one read per word of the instruction and is no more than that in a skipped step. With no syscall handler, the
step depends on no other word than those listed as read, and changes none but those listed as written: from a
memory that agrees on the words read, it does exactly the same. -/
def Obligations.StepTouchesOnlyItsAccesses : Prop :=
  (∀ s : State, s.status = .run → ∃ rest : List Access,
    stepAccesses s = (List.range (1 + trailingCount (fetchDecode s).operands)).map
      (fun k => Access.read (s.pc + BitVec.ofNat 16 k)) ++ rest ∧
    rest.length ≤ 3 ∧ (s.skip = true → rest = [])) ∧
  ∀ (s t : State) (m : Memory), s.session.syscallTable = [] → step s = .next t →
    (∀ x : Word, Access.read x ∈ stepAccesses s → m.readWord x = s.readMem x) →
    ∃ u : State, step { s with mem := m } = .next u ∧ u = { t with mem := u.mem } ∧
      ∀ x : Word, u.readMem x = if Access.write x ∈ stepAccesses s then t.readMem x else m.readWord x

/-- R28: no instruction reads CYC. With no syscall handler to read it, a machine whose CYC is larger by k does
in one step exactly the same, and its CYC stays larger by k. -/
def Obligations.CycleCounterIsUnobservable : Prop :=
  ∀ (s t : State) (k : Nat), s.session.syscallTable = [] → step s = .next t →
    step { s with cyc := s.cyc + k } = .next { t with cyc := t.cyc + k }

/-! ### The assembler's notation -/

/-- R87, steps 5 to 7, on a bare token that is no stack or special name: a number 0..31 is embedded, 32..65535
takes the next word, larger is an error; a register name is the register; any other token is a label and takes
the next word. -/
def Obligations.AsmBareTokens : Prop :=
  ∀ (syn : AsmSyntax) (t : Token), specialOfToken t = none → unbracket t = none →
    (∀ n, syn.numLiteral t = some n →
      (n ≤ 31 → classify syn t = .ok (.plain (.lit (BitVec.ofNat 16 n)))) ∧
      (32 ≤ n → n ≤ 65535 → classify syn t = .ok (.nextLit (.num n))) ∧
      (65536 ≤ n → classify syn t = .error .literalRange)) ∧
    (syn.numLiteral t = none → ∀ r, regOfToken t = some r → classify syn t = .ok (.plain (.reg r))) ∧
    (syn.numLiteral t = none → regOfToken t = none →
      ∃ isRelative name, classify syn t = .ok (.nextLit (.label isRelative name)))

/-- R89: an absolute reference is patched with the label's address, a relative one with the label's address
less the instruction's address less 1, modulo 65536. -/
def Obligations.LabelPatchValues : Prop :=
  ∀ (labels : Token → Option Word) (name : Token) (label site : Word), labels name = some label →
    patchValue labels site (.label false name) = .ok label ∧
    ∃ patch : Word, patchValue labels site (.label true name) = .ok patch ∧
      (patch.toNat : Int) = ((label.toNat : Int) - site.toNat - 1) % 65536

/-- R88: what the assembler emits for a line is the encoding of a well-formed instruction, so the core decodes
it as such. -/
def Obligations.AssembledLinesAreEncodings : Prop :=
  ∀ (syn : AsmSyntax) (labels : Token → Option Word) (sx : BitVec 6) (site : Word) (mnemonic : Token)
    (ops : List Token) (ws : List Word), sx ≠ Config.jsrExtOpcode →
    assembleInstr syn labels sx site mnemonic ops = .ok ws →
    ∃ i : Instr, ws = encode sx i ∧ i.wellFormed = true ∧
      decode sx (ws.getD 0 0) (ws.getD 1 0) (ws.getD 2 0) = .instr i
end

