-- ==== Sys2Proof/Laws/Decode.lean ====
section
/-! SUPPORT. The fields of an instruction word and the operand-code map, in both directions
(30_encoding.md R70, R74, R76). -/

namespace Sys2Proof

/-! ### Fields of a word (R70) -/

@[simp] theorem opField_instrWord (op : BitVec 4) (fa fb : BitVec 6) : opField (instrWord op fa fb) = op := by
  apply BitVec.eq_of_getLsbD_eq
  intro i hi
  simp only [opField, instrWord, BitVec.getLsbD_extractLsb', BitVec.getLsbD_append]
  simp [hi]

@[simp] theorem aField_instrWord (op : BitVec 4) (fa fb : BitVec 6) : aField (instrWord op fa fb) = fa := by
  apply BitVec.eq_of_getLsbD_eq
  intro i hi
  simp only [aField, instrWord, BitVec.getLsbD_extractLsb', BitVec.getLsbD_append]
  have h : ¬ 4 + i < 4 := by omega
  simp [hi, show 4 + i - 4 = i by omega]

@[simp] theorem bField_instrWord (op : BitVec 4) (fa fb : BitVec 6) : bField (instrWord op fa fb) = fb := by
  apply BitVec.eq_of_getLsbD_eq
  intro i hi
  simp only [bField, instrWord, BitVec.getLsbD_extractLsb', BitVec.getLsbD_append]
  have h : ¬ 10 + i < 4 := by omega
  simp [hi, h, show ¬ 10 + i - 4 < 6 by omega, show 10 + i - 4 - 6 = i by omega]

/-- A word is its three fields. -/
theorem instrWord_fields (w : Word) : instrWord (opField w) (aField w) (bField w) = w := by
  apply BitVec.eq_of_getLsbD_eq
  intro i hi
  simp only [instrWord, opField, aField, bField, BitVec.getLsbD_append, BitVec.getLsbD_extractLsb']
  by_cases h4 : i < 4
  · simp [h4]
  · by_cases h10 : i - 4 < 6
    · simp [h4, h10, show 4 + (i - 4) = i by omega]
    · simp [h4, h10, show 10 + (i - 4 - 6) = i by omega, show i - 4 - 6 < 6 by omega]

/-! ### Registers -/

@[simp] theorem Reg.ofIndex_index (r : Reg) (k : Nat) (h : k % 8 = 0) :
    Reg.ofIndex ((BitVec.ofNat 6 (k + r.index)).extractLsb' 0 3) = r := by
  have hn : ((BitVec.ofNat 6 (k + r.index)).extractLsb' 0 3).toNat = r.index := by
    have hr : r.index < 8 := by cases r <;> decide
    simp only [BitVec.extractLsb'_toNat, BitVec.toNat_ofNat, Nat.shiftRight_zero]
    omega
  unfold Reg.ofIndex
  rw [hn]
  cases r <;> rfl

theorem Reg.index_lt (r : Reg) : r.index < 8 := by cases r <;> decide

/-! ### Operand codes (R74, R75, R76) -/

/-- Encoding a form and decoding its code gives the form back. -/
theorem Operand.ofCode_code (q : Operand) (nw : Word) (hw : q.wellFormed = true)
    (hn : q.trailing = [] ∨ q.trailing = [nw]) : Operand.ofCode q.code nw = q := by
  cases q with
  | reg r =>
    have h := r.index_lt
    have e := Reg.ofIndex_index r 0 rfl
    rw [Nat.zero_add] at e
    simp only [Operand.code, Operand.ofCode, BitVec.toNat_ofNat]
    rw [if_pos (by omega), e]
  | regInd r =>
    have h := r.index_lt
    simp only [Operand.code, Operand.ofCode, BitVec.toNat_ofNat]
    rw [if_neg (by omega), if_pos (by omega), Reg.ofIndex_index r 8 rfl]
  | regNext r w =>
    have h := r.index_lt
    have e : w = nw := by simpa [Operand.trailing] using hn
    simp only [Operand.code, Operand.ofCode, BitVec.toNat_ofNat]
    rw [if_neg (by omega), if_neg (by omega), if_pos (by omega), Reg.ofIndex_index r 16 rfl, e]
  | lit v =>
    have h : v.toNat ≤ 31 := of_decide_eq_true hw
    simp only [Operand.code, Operand.ofCode, BitVec.toNat_ofNat]
    repeat rw [if_neg (by omega)]
    congr 1
    apply BitVec.eq_of_toNat_eq
    simp only [trunc16, BitVec.toNat_ofNat]
    omega
  | nextInd w =>
    have e : w = nw := by simpa [Operand.trailing] using hn
    rw [e]; rfl
  | nextLit w =>
    have e : w = nw := by simpa [Operand.trailing] using hn
    rw [e]; rfl
  | _ => rfl

/-- The form a code selects does not depend on the word that follows, but for carrying it. -/
theorem Operand.code_ofCode (c : BitVec 6) (nw : Word) : (Operand.ofCode c nw).code = c := by
  have h0 : ∀ d : BitVec 6, (Operand.ofCode d 0).code = d := by decide
  have h : (Operand.ofCode c nw).code = (Operand.ofCode c 0).code := by
    simp only [Operand.ofCode, apply_ite Operand.code]
    rfl
  rw [h, h0]

theorem Operand.wellFormed_ofCode (c : BitVec 6) (nw : Word) : (Operand.ofCode c nw).wellFormed = true := by
  have h0 : ∀ d : BitVec 6, (Operand.ofCode d 0).wellFormed = true := by decide
  have h : (Operand.ofCode c nw).wellFormed = (Operand.ofCode c 0).wellFormed := by
    simp only [Operand.ofCode, apply_ite Operand.wellFormed]
    rfl
  rw [h, h0]

/-- A code has a trailing word exactly when its form carries one (R76). -/
theorem Operand.trailing_ofCode (c : BitVec 6) (nw : Word) :
    (Operand.ofCode c nw).trailing = if hasTrailingWord c then [nw] else [] := by
  have h0 : ∀ d : BitVec 6,
      (hasTrailingWord d = true ↔ (Operand.ofCode d 0).trailing = [0]) ∧
      (hasTrailingWord d = false ↔ (Operand.ofCode d 0).trailing = []) := by decide
  have h : (Operand.ofCode c nw).trailing = (Operand.ofCode c 0).trailing.map (fun _ => nw) := by
    simp only [Operand.ofCode, apply_ite Operand.trailing, apply_ite (List.map (fun _ : Word => nw))]
    rfl
  rw [h]
  cases hc : hasTrailingWord c with
  | true => rw [(h0 c).1.mp hc]; rfl
  | false => rw [(h0 c).2.mp hc]; rfl

/-- A form without a trailing word is the same whatever word follows. -/
theorem Operand.ofCode_congr (c : BitVec 6) (m n : Word) (h : hasTrailingWord c = false) :
    Operand.ofCode c m = Operand.ofCode c n := by
  simp only [hasTrailingWord, Bool.or_eq_false_iff, decide_eq_false_iff_not, beq_eq_false_iff_ne, ne_eq,
    ← BitVec.toNat_inj] at h
  have hE : ¬c.toNat = 0x1E := h.1.2
  have hF : ¬c.toNat = 0x1F := h.2
  unfold Operand.ofCode
  by_cases h1 : c.toNat ≤ 0x0F
  · by_cases h0 : c.toNat ≤ 0x07
    · rw [if_pos h0, if_pos h0]
    · rw [if_neg h0, if_neg h0, if_pos h1, if_pos h1]
  · have h2 : ¬c.toNat ≤ 0x17 := by omega
    simp only [if_neg h2, if_neg hE, if_neg hF]

/-- Decoding depends only on the words an instruction has (R76). -/
theorem decode_congr (sx : BitVec 6) (w m1 m2 n1 n2 : Word) (h1 : 1 < wordLength w → m1 = n1)
    (h2 : 2 < wordLength w → m2 = n2) : decode sx w m1 m2 = decode sx w n1 n2 := by
  have key : ∀ (c : BitVec 6) (m n : Word), (hasTrailingWord c = true → m = n) →
      Operand.ofCode c m = Operand.ofCode c n := fun c m n e => by
    cases hc : hasTrailingWord c with
    | true => rw [e hc]
    | false => exact Operand.ofCode_congr c m n hc
  by_cases h0 : opField w = 0
  · have hl : wordLength w = 1 + (hasTrailingWord (bField w)).toNat := by simp [wordLength, h0]
    simp only [decode, if_pos h0]
    rw [key _ m1 n1 fun hb => h1 (by rw [hl, hb]; decide)]
  · have hl : wordLength w = 1 + (hasTrailingWord (aField w)).toNat + (hasTrailingWord (bField w)).toNat := by
      rw [wordLength, if_pos (bne_iff_ne.mpr h0)]
    simp only [decode, if_neg h0]
    rw [key (aField w) m1 n1 fun ha => h1 (by rw [hl, ha, Bool.toNat_true]; omega)]
    rw [key (bField w) (if hasTrailingWord (aField w) = true then m2 else m1)
      (if hasTrailingWord (aField w) = true then n2 else n1)]
    intro hb
    cases ha : hasTrailingWord (aField w) with
    | true => exact h2 (by rw [hl, ha, hb]; decide)
    | false => exact h1 (by rw [hl, ha, hb]; decide)

theorem Operand.hasTrailingWord_code (q : Operand) (hw : q.wellFormed = true) :
    hasTrailingWord q.code = !q.trailing.isEmpty := by
  have h := Operand.trailing_ofCode q.code (q.trailing.headD 0)
  rw [Operand.ofCode_code q _ hw (by cases q <;> simp [Operand.trailing])] at h
  rw [h]
  cases hasTrailingWord q.code <;> rfl

theorem Operand.trailing_length_le (q : Operand) : q.trailing.length ≤ 1 := by
  cases q <;> simp [Operand.trailing]

end Sys2Proof
end

