-- ==== Sys2Proof/Laws/State.lean ====
section
/-! SUPPORT. One lemma per field per update of State, true by rfl. -/

namespace Sys2Proof.Machine

variable (s : State)

/-! ### `setReg` writes `regs` -/

@[simp] theorem State.setReg_regs (r : Reg) (v : Word) : (s.setReg r v).regs = s.regs.set r v := rfl
@[simp] theorem State.setReg_sp (r : Reg) (v : Word) : (s.setReg r v).sp = s.sp := rfl
@[simp] theorem State.setReg_pc (r : Reg) (v : Word) : (s.setReg r v).pc = s.pc := rfl
@[simp] theorem State.setReg_o (r : Reg) (v : Word) : (s.setReg r v).o = s.o := rfl
@[simp] theorem State.setReg_mem (r : Reg) (v : Word) : (s.setReg r v).mem = s.mem := rfl
@[simp] theorem State.setReg_skip (r : Reg) (v : Word) : (s.setReg r v).skip = s.skip := rfl
@[simp] theorem State.setReg_status (r : Reg) (v : Word) : (s.setReg r v).status = s.status := rfl
@[simp] theorem State.setReg_cyc (r : Reg) (v : Word) : (s.setReg r v).cyc = s.cyc := rfl
@[simp] theorem State.setReg_session (r : Reg) (v : Word) : (s.setReg r v).session = s.session := rfl
@[simp] theorem State.setReg_hostCalls (r : Reg) (v : Word) : (s.setReg r v).hostCalls = s.hostCalls := rfl

/-! ### `setSp` writes `sp` -/

@[simp] theorem State.setSp_regs (v : Word) : (s.setSp v).regs = s.regs := rfl
@[simp] theorem State.setSp_sp (v : Word) : (s.setSp v).sp = v := rfl
@[simp] theorem State.setSp_pc (v : Word) : (s.setSp v).pc = s.pc := rfl
@[simp] theorem State.setSp_o (v : Word) : (s.setSp v).o = s.o := rfl
@[simp] theorem State.setSp_mem (v : Word) : (s.setSp v).mem = s.mem := rfl
@[simp] theorem State.setSp_skip (v : Word) : (s.setSp v).skip = s.skip := rfl
@[simp] theorem State.setSp_status (v : Word) : (s.setSp v).status = s.status := rfl
@[simp] theorem State.setSp_cyc (v : Word) : (s.setSp v).cyc = s.cyc := rfl
@[simp] theorem State.setSp_session (v : Word) : (s.setSp v).session = s.session := rfl
@[simp] theorem State.setSp_hostCalls (v : Word) : (s.setSp v).hostCalls = s.hostCalls := rfl

/-! ### `setPc` writes `pc` -/

@[simp] theorem State.setPc_regs (v : Word) : (s.setPc v).regs = s.regs := rfl
@[simp] theorem State.setPc_sp (v : Word) : (s.setPc v).sp = s.sp := rfl
@[simp] theorem State.setPc_pc (v : Word) : (s.setPc v).pc = v := rfl
@[simp] theorem State.setPc_o (v : Word) : (s.setPc v).o = s.o := rfl
@[simp] theorem State.setPc_mem (v : Word) : (s.setPc v).mem = s.mem := rfl
@[simp] theorem State.setPc_skip (v : Word) : (s.setPc v).skip = s.skip := rfl
@[simp] theorem State.setPc_status (v : Word) : (s.setPc v).status = s.status := rfl
@[simp] theorem State.setPc_cyc (v : Word) : (s.setPc v).cyc = s.cyc := rfl
@[simp] theorem State.setPc_session (v : Word) : (s.setPc v).session = s.session := rfl
@[simp] theorem State.setPc_hostCalls (v : Word) : (s.setPc v).hostCalls = s.hostCalls := rfl

/-! ### `setO` writes `o` -/

@[simp] theorem State.setO_regs (v : Word) : (s.setO v).regs = s.regs := rfl
@[simp] theorem State.setO_sp (v : Word) : (s.setO v).sp = s.sp := rfl
@[simp] theorem State.setO_pc (v : Word) : (s.setO v).pc = s.pc := rfl
@[simp] theorem State.setO_o (v : Word) : (s.setO v).o = v := rfl
@[simp] theorem State.setO_mem (v : Word) : (s.setO v).mem = s.mem := rfl
@[simp] theorem State.setO_skip (v : Word) : (s.setO v).skip = s.skip := rfl
@[simp] theorem State.setO_status (v : Word) : (s.setO v).status = s.status := rfl
@[simp] theorem State.setO_cyc (v : Word) : (s.setO v).cyc = s.cyc := rfl
@[simp] theorem State.setO_session (v : Word) : (s.setO v).session = s.session := rfl
@[simp] theorem State.setO_hostCalls (v : Word) : (s.setO v).hostCalls = s.hostCalls := rfl

/-! ### `writeMem` writes `mem` -/

@[simp] theorem State.writeMem_regs (addr v : Word) : (s.writeMem addr v).regs = s.regs := rfl
@[simp] theorem State.writeMem_sp (addr v : Word) : (s.writeMem addr v).sp = s.sp := rfl
@[simp] theorem State.writeMem_pc (addr v : Word) : (s.writeMem addr v).pc = s.pc := rfl
@[simp] theorem State.writeMem_o (addr v : Word) : (s.writeMem addr v).o = s.o := rfl
@[simp] theorem State.writeMem_mem (addr v : Word) : (s.writeMem addr v).mem = s.mem.writeWord addr v := rfl
@[simp] theorem State.writeMem_skip (addr v : Word) : (s.writeMem addr v).skip = s.skip := rfl
@[simp] theorem State.writeMem_status (addr v : Word) : (s.writeMem addr v).status = s.status := rfl
@[simp] theorem State.writeMem_cyc (addr v : Word) : (s.writeMem addr v).cyc = s.cyc := rfl
@[simp] theorem State.writeMem_session (addr v : Word) : (s.writeMem addr v).session = s.session := rfl
@[simp] theorem State.writeMem_hostCalls (addr v : Word) : (s.writeMem addr v).hostCalls = s.hostCalls := rfl

/-! ### `setSkip` writes `skip` -/

@[simp] theorem State.setSkip_regs (v : Bool) : (s.setSkip v).regs = s.regs := rfl
@[simp] theorem State.setSkip_sp (v : Bool) : (s.setSkip v).sp = s.sp := rfl
@[simp] theorem State.setSkip_pc (v : Bool) : (s.setSkip v).pc = s.pc := rfl
@[simp] theorem State.setSkip_o (v : Bool) : (s.setSkip v).o = s.o := rfl
@[simp] theorem State.setSkip_mem (v : Bool) : (s.setSkip v).mem = s.mem := rfl
@[simp] theorem State.setSkip_skip (v : Bool) : (s.setSkip v).skip = v := rfl
@[simp] theorem State.setSkip_status (v : Bool) : (s.setSkip v).status = s.status := rfl
@[simp] theorem State.setSkip_cyc (v : Bool) : (s.setSkip v).cyc = s.cyc := rfl
@[simp] theorem State.setSkip_session (v : Bool) : (s.setSkip v).session = s.session := rfl
@[simp] theorem State.setSkip_hostCalls (v : Bool) : (s.setSkip v).hostCalls = s.hostCalls := rfl

/-! ### `setStatus` writes `status` -/

@[simp] theorem State.setStatus_regs (v : Status) : (s.setStatus v).regs = s.regs := rfl
@[simp] theorem State.setStatus_sp (v : Status) : (s.setStatus v).sp = s.sp := rfl
@[simp] theorem State.setStatus_pc (v : Status) : (s.setStatus v).pc = s.pc := rfl
@[simp] theorem State.setStatus_o (v : Status) : (s.setStatus v).o = s.o := rfl
@[simp] theorem State.setStatus_mem (v : Status) : (s.setStatus v).mem = s.mem := rfl
@[simp] theorem State.setStatus_skip (v : Status) : (s.setStatus v).skip = s.skip := rfl
@[simp] theorem State.setStatus_status (v : Status) : (s.setStatus v).status = v := rfl
@[simp] theorem State.setStatus_cyc (v : Status) : (s.setStatus v).cyc = s.cyc := rfl
@[simp] theorem State.setStatus_session (v : Status) : (s.setStatus v).session = s.session := rfl
@[simp] theorem State.setStatus_hostCalls (v : Status) : (s.setStatus v).hostCalls = s.hostCalls := rfl

/-! ### `charge` writes `cyc` -/

@[simp] theorem State.charge_regs (n : Nat) : (s.charge n).regs = s.regs := rfl
@[simp] theorem State.charge_sp (n : Nat) : (s.charge n).sp = s.sp := rfl
@[simp] theorem State.charge_pc (n : Nat) : (s.charge n).pc = s.pc := rfl
@[simp] theorem State.charge_o (n : Nat) : (s.charge n).o = s.o := rfl
@[simp] theorem State.charge_mem (n : Nat) : (s.charge n).mem = s.mem := rfl
@[simp] theorem State.charge_skip (n : Nat) : (s.charge n).skip = s.skip := rfl
@[simp] theorem State.charge_status (n : Nat) : (s.charge n).status = s.status := rfl
@[simp] theorem State.charge_cyc (n : Nat) : (s.charge n).cyc = s.cyc + n := rfl
@[simp] theorem State.charge_session (n : Nat) : (s.charge n).session = s.session := rfl
@[simp] theorem State.charge_hostCalls (n : Nat) : (s.charge n).hostCalls = s.hostCalls := rfl

/-! ### `countHostCall` writes `hostCalls` -/

@[simp] theorem State.countHostCall_regs : (s.countHostCall).regs = s.regs := rfl
@[simp] theorem State.countHostCall_sp : (s.countHostCall).sp = s.sp := rfl
@[simp] theorem State.countHostCall_pc : (s.countHostCall).pc = s.pc := rfl
@[simp] theorem State.countHostCall_o : (s.countHostCall).o = s.o := rfl
@[simp] theorem State.countHostCall_mem : (s.countHostCall).mem = s.mem := rfl
@[simp] theorem State.countHostCall_skip : (s.countHostCall).skip = s.skip := rfl
@[simp] theorem State.countHostCall_status : (s.countHostCall).status = s.status := rfl
@[simp] theorem State.countHostCall_cyc : (s.countHostCall).cyc = s.cyc := rfl
@[simp] theorem State.countHostCall_session : (s.countHostCall).session = s.session := rfl
@[simp] theorem State.countHostCall_hostCalls : (s.countHostCall).hostCalls = s.hostCalls + 1 := rfl

/-! ### `takeTrailing` takes one word and one cycle -/

@[simp] theorem State.takeTrailing_regs : (s.takeTrailing).regs = s.regs := rfl
@[simp] theorem State.takeTrailing_sp : (s.takeTrailing).sp = s.sp := rfl
@[simp] theorem State.takeTrailing_pc : (s.takeTrailing).pc = s.pc + 1 := rfl
@[simp] theorem State.takeTrailing_o : (s.takeTrailing).o = s.o := rfl
@[simp] theorem State.takeTrailing_mem : (s.takeTrailing).mem = s.mem := rfl
@[simp] theorem State.takeTrailing_skip : (s.takeTrailing).skip = s.skip := rfl
@[simp] theorem State.takeTrailing_status : (s.takeTrailing).status = s.status := rfl
@[simp] theorem State.takeTrailing_cyc : (s.takeTrailing).cyc = s.cyc + 1 := rfl
@[simp] theorem State.takeTrailing_session : (s.takeTrailing).session = s.session := rfl
@[simp] theorem State.takeTrailing_hostCalls : (s.takeTrailing).hostCalls = s.hostCalls := rfl

/-! ### `pushWord` moves SP and writes the word at it -/

@[simp] theorem State.pushWord_regs (v : Word) : (s.pushWord v).regs = s.regs := rfl
@[simp] theorem State.pushWord_sp (v : Word) : (s.pushWord v).sp = s.sp - 1 := rfl
@[simp] theorem State.pushWord_pc (v : Word) : (s.pushWord v).pc = s.pc := rfl
@[simp] theorem State.pushWord_o (v : Word) : (s.pushWord v).o = s.o := rfl
@[simp] theorem State.pushWord_mem (v : Word) : (s.pushWord v).mem = s.mem.writeWord (s.sp - 1) v := rfl
@[simp] theorem State.pushWord_skip (v : Word) : (s.pushWord v).skip = s.skip := rfl
@[simp] theorem State.pushWord_status (v : Word) : (s.pushWord v).status = s.status := rfl
@[simp] theorem State.pushWord_cyc (v : Word) : (s.pushWord v).cyc = s.cyc := rfl
@[simp] theorem State.pushWord_session (v : Word) : (s.pushWord v).session = s.session := rfl
@[simp] theorem State.pushWord_hostCalls (v : Word) : (s.pushWord v).hostCalls = s.hostCalls := rfl

/-! ### `halt` writes the status -/

@[simp] theorem State.halt_regs : (s.halt).regs = s.regs := rfl
@[simp] theorem State.halt_sp : (s.halt).sp = s.sp := rfl
@[simp] theorem State.halt_pc : (s.halt).pc = s.pc := rfl
@[simp] theorem State.halt_o : (s.halt).o = s.o := rfl
@[simp] theorem State.halt_mem : (s.halt).mem = s.mem := rfl
@[simp] theorem State.halt_skip : (s.halt).skip = s.skip := rfl
@[simp] theorem State.halt_status : (s.halt).status = .halted := rfl
@[simp] theorem State.halt_cyc : (s.halt).cyc = s.cyc := rfl
@[simp] theorem State.halt_session : (s.halt).session = s.session := rfl
@[simp] theorem State.halt_hostCalls : (s.halt).hostCalls = s.hostCalls := rfl

/-! ### `raiseFault` writes the status -/

@[simp] theorem State.raiseFault_regs (c : FaultCause) : (s.raiseFault c).regs = s.regs := rfl
@[simp] theorem State.raiseFault_sp (c : FaultCause) : (s.raiseFault c).sp = s.sp := rfl
@[simp] theorem State.raiseFault_pc (c : FaultCause) : (s.raiseFault c).pc = s.pc := rfl
@[simp] theorem State.raiseFault_o (c : FaultCause) : (s.raiseFault c).o = s.o := rfl
@[simp] theorem State.raiseFault_mem (c : FaultCause) : (s.raiseFault c).mem = s.mem := rfl
@[simp] theorem State.raiseFault_skip (c : FaultCause) : (s.raiseFault c).skip = s.skip := rfl
@[simp] theorem State.raiseFault_status (c : FaultCause) : (s.raiseFault c).status = .faulted c := rfl
@[simp] theorem State.raiseFault_cyc (c : FaultCause) : (s.raiseFault c).cyc = s.cyc := rfl
@[simp] theorem State.raiseFault_session (c : FaultCause) : (s.raiseFault c).session = s.session := rfl
@[simp] theorem State.raiseFault_hostCalls (c : FaultCause) : (s.raiseFault c).hostCalls = s.hostCalls := rfl

/-! ### Registers -/

@[simp] theorem RegFile.get_set_same (f : RegFile) (r : Reg) (v : Word) : (f.set r v).get r = v := by
  cases r <;> rfl

theorem RegFile.get_set_other (f : RegFile) (r q : Reg) (v : Word) (h : q ≠ r) :
    (f.set r v).get q = f.get q := by
  cases r <;> cases q <;> first | rfl | exact absurd rfl h

theorem RegFile.get_set (f : RegFile) (r q : Reg) (v : Word) :
    (f.set r v).get q = if q = r then v else f.get q := by
  split
  · next h => rw [h, RegFile.get_set_same]
  · next h => exact RegFile.get_set_other f r q v h

/-- Register files that read alike are equal. -/
theorem RegFile.ext_get (f g : RegFile) (h : ∀ r, f.get r = g.get r) : f = g := by
  obtain ⟨a, b, c, x, y, z, i, j⟩ := f
  obtain ⟨a', b', c', x', y', z', i', j'⟩ := g
  have hA := h .A; have hB := h .B; have hC := h .C; have hX := h .X
  have hY := h .Y; have hZ := h .Z; have hI := h .I; have hJ := h .J
  simp only [RegFile.get] at hA hB hC hX hY hZ hI hJ
  subst hA hB hC hX hY hZ hI hJ
  rfl

/-! ### What a word write to memory does to the state's reads -/

@[simp] theorem State.getReg_eq (r : Reg) : s.getReg r = s.regs.get r := rfl

@[simp] theorem State.readMem_eq (addr : Word) : s.readMem addr = s.mem.readWord addr := rfl

@[simp] theorem State.exitCode_success (c : ExitStatusCodes) (s : State) : s.exitCode c .success = c.success := rfl

@[simp] theorem State.exitCode_failure (c : ExitStatusCodes) (s : State) : s.exitCode c .failure = c.failure := rfl

@[simp] theorem State.exitCode_programValue (c : ExitStatusCodes) (s : State) :
    s.exitCode c .programValue = (s.regs.get .A).toNat := rfl

end Sys2Proof.Machine
end

