-- ==== Sys2Proof/Laws/Memory.lean ====
section
/-! SUPPORT. Memory: read after write, that every operation keeps the canonical form, and that canonical
memories which read alike are equal. Read after write needs no canonical form. -/

namespace Sys2Proof.Machine

/-! ### Bytes -/

theorem Memory.readByte_eraseCell (m : Memory) (n k : Nat) :
    Memory.readByte (m.eraseCell n) k = if k = n then 0 else Memory.readByte m k := by
  induction m with
  | nil => simp [Memory.eraseCell, Memory.readByte]
  | cons c rest ih =>
    obtain ⟨j, x⟩ := c
    simp only [Memory.eraseCell]
    split
    · next hj =>
      rw [ih]
      split
      · rfl
      · next hk =>
        have : j ≠ k := fun h => hk (h ▸ hj)
        simp [Memory.readByte, this]
    · next hj =>
      simp only [Memory.readByte]
      split
      · next hk => rw [if_neg (fun h => hj (hk.trans h))]
      · exact ih

/-- Insertion into a memory without a cell for `n`. -/
theorem Memory.readByte_insertCell (m : Memory) (n k : Nat) (v : Byte)
    (h : ∀ c ∈ m, c.1 ≠ n) :
    Memory.readByte (m.insertCell n v) k = if k = n then v else Memory.readByte m k := by
  induction m with
  | nil =>
    simp only [Memory.insertCell, Memory.readByte]
    split
    · next hk => rw [if_pos hk.symm]
    · next hk => rw [if_neg (Ne.symm hk)]
  | cons c rest ih =>
    obtain ⟨j, x⟩ := c
    have hj : j ≠ n := h (j, x) (by simp)
    simp only [Memory.insertCell]
    split
    · simp only [Memory.readByte]
      by_cases hk : k = n
      · rw [if_pos hk.symm, if_pos hk]
      · rw [if_neg (Ne.symm hk), if_neg hk]
    · simp only [Memory.readByte, ih (fun c hc => h c (List.mem_cons_of_mem _ hc))]
      by_cases hk : k = n
      · rw [if_neg (fun e => hj (e.trans hk)), if_pos hk, if_pos hk]
      · rw [if_neg hk, if_neg hk]

theorem Memory.mem_eraseCell (m : Memory) (n : Nat) (c : Host.Cell) (h : c ∈ m.eraseCell n) :
    c ∈ m ∧ c.1 ≠ n := by
  induction m with
  | nil => simp [Memory.eraseCell] at h
  | cons d rest ih =>
    obtain ⟨j, x⟩ := d
    simp only [Memory.eraseCell] at h
    split at h
    · exact ⟨List.mem_cons_of_mem _ (ih h).1, (ih h).2⟩
    · next hj =>
      rcases List.mem_cons.mp h with h | h
      · subst h; exact ⟨by simp, hj⟩
      · exact ⟨List.mem_cons_of_mem _ (ih h).1, (ih h).2⟩

theorem Memory.readByte_writeByte (m : Memory) (n k : Nat) (v : Byte) :
    Memory.readByte (m.writeByte n v) k = if k = n then v else Memory.readByte m k := by
  unfold Memory.writeByte
  split
  · next hv => rw [Memory.readByte_eraseCell, hv]
  · rw [Memory.readByte_insertCell _ _ _ _ (fun c hc => (Memory.mem_eraseCell m n c hc).2),
      Memory.readByte_eraseCell]
    split <;> rfl

/-! ### Words -/

theorem highByte_append_lowByte (v : Word) : highByte v ++ lowByte v = v := by
  apply BitVec.eq_of_getLsbD_eq
  intro i hi
  simp only [highByte, lowByte, BitVec.getLsbD_append, BitVec.getLsbD_extractLsb']
  by_cases h : i < 8
  · simp [h]
  · simp only [h, decide_false]
    rw [show 8 + (i - 8) = i by omega]
    simp; omega

@[simp] theorem lowByte_append (x y : Byte) : lowByte (x ++ y) = y := by
  apply BitVec.eq_of_getLsbD_eq
  intro i hi
  simp only [lowByte, BitVec.getLsbD_extractLsb', BitVec.getLsbD_append]
  simp [hi]

@[simp] theorem highByte_append (x y : Byte) : highByte (x ++ y) = x := by
  apply BitVec.eq_of_getLsbD_eq
  intro i hi
  simp only [highByte, BitVec.getLsbD_extractLsb', BitVec.getLsbD_append]
  simp [hi]

/-- The two cells of a written word, and no other, hold it afterwards (20_memory.md R51). -/
theorem Memory.readByte_writeWord (m : Memory) (addr v : Word) (n : Nat) :
    Memory.readByte (m.writeWord addr v) n =
      if n = 2 * addr.toNat + 1 then highByte v
      else if n = 2 * addr.toNat then lowByte v
      else Memory.readByte m n := by
  simp only [Memory.writeWord, Memory.readByte_writeByte]

/-- 20_memory.md R51: the next read of the address gives the written word, every other address keeps its
word. -/
theorem Memory.readWord_writeWord (m : Memory) (addr v a : Word) :
    Memory.readWord (m.writeWord addr v) a = if a = addr then v else Memory.readWord m a := by
  simp only [Memory.readWord, Memory.readByte_writeWord]
  by_cases h : a = addr
  · subst h
    rw [if_pos rfl, if_neg (by omega), if_pos rfl, if_pos rfl, highByte_append_lowByte]
  · have hn : a.toNat ≠ addr.toNat := fun e => h (BitVec.eq_of_toNat_eq e)
    rw [if_neg h, if_neg (by omega), if_neg (by omega), if_neg (by omega), if_neg (by omega)]

@[simp] theorem Memory.readWord_writeWord_same (m : Memory) (addr v : Word) :
    Memory.readWord (m.writeWord addr v) addr = v := by
  rw [Memory.readWord_writeWord, if_pos rfl]

theorem Memory.readWord_writeWord_other (m : Memory) (addr v a : Word) (h : a ≠ addr) :
    Memory.readWord (m.writeWord addr v) a = Memory.readWord m a := by
  rw [Memory.readWord_writeWord, if_neg h]

theorem Memory.readWord_nil (a : Word) : Memory.readWord [] a = 0 := by
  simp [Memory.readWord, Memory.readByte]

/-! ### The canonical form -/

theorem Memory.wfFrom_mono (m : Memory) {lo lo' : Nat} (h : lo ≤ lo') (hw : m.wfFrom lo' = true) :
    m.wfFrom lo = true := by
  cases m with
  | nil => rfl
  | cons c rest =>
    obtain ⟨k, v⟩ := c
    simp only [Memory.wfFrom, Bool.and_eq_true, decide_eq_true_eq] at hw ⊢
    exact ⟨⟨⟨Nat.le_trans h hw.1.1.1, hw.1.1.2⟩, hw.1.2⟩, hw.2⟩

theorem Memory.wfFrom_eraseCell (m : Memory) (n lo : Nat) (hw : m.wfFrom lo = true) :
    (m.eraseCell n).wfFrom lo = true := by
  induction m generalizing lo with
  | nil => rfl
  | cons c rest ih =>
    obtain ⟨k, v⟩ := c
    simp only [Memory.wfFrom, Bool.and_eq_true, decide_eq_true_eq] at hw
    simp only [Memory.eraseCell]
    split
    · exact ih lo (Memory.wfFrom_mono rest (by omega) hw.2)
    · simp only [Memory.wfFrom, Bool.and_eq_true, decide_eq_true_eq]
      exact ⟨hw.1, ih _ hw.2⟩

theorem Memory.wfFrom_insertCell (m : Memory) (n lo : Nat) (v : Byte) (hw : m.wfFrom lo = true)
    (hlo : lo ≤ n) (hn : n < 2 * Config.memWords) (hv : v ≠ 0) (hne : ∀ c ∈ m, c.1 ≠ n) :
    (m.insertCell n v).wfFrom lo = true := by
  induction m generalizing lo with
  | nil => simpa [Memory.insertCell, Memory.wfFrom, hlo, hn] using hv
  | cons c rest ih =>
    obtain ⟨k, x⟩ := c
    simp only [Memory.wfFrom, Bool.and_eq_true, decide_eq_true_eq] at hw
    have hk : k ≠ n := hne (k, x) (by simp)
    simp only [Memory.insertCell]
    split
    · next h =>
      simp only [Memory.wfFrom, Bool.and_eq_true, decide_eq_true_eq, bne_iff_ne]
      exact ⟨⟨⟨hlo, hn⟩, hv⟩, ⟨⟨by omega, hw.1.1.2⟩, by simpa using hw.1.2⟩, hw.2⟩
    · next h =>
      simp only [Memory.wfFrom, Bool.and_eq_true, decide_eq_true_eq]
      exact ⟨hw.1, ih _ hw.2 (by omega) (fun c hc => hne c (List.mem_cons_of_mem _ hc))⟩

theorem Memory.wf_writeByte (m : Memory) (n : Nat) (v : Byte) (hw : m.wf = true)
    (hn : n < 2 * Config.memWords) : (m.writeByte n v).wf = true := by
  unfold Memory.writeByte Memory.wf at *
  split
  · exact Memory.wfFrom_eraseCell m n 0 hw
  · next hv =>
    exact Memory.wfFrom_insertCell _ n 0 v (Memory.wfFrom_eraseCell m n 0 hw) (Nat.zero_le _) hn hv
      (fun c hc => (Memory.mem_eraseCell m n c hc).2)

/-- A word write keeps the canonical form. -/
theorem Memory.wf_writeWord (m : Memory) (addr v : Word) (hw : m.wf = true) :
    (m.writeWord addr v).wf = true := by
  have h : addr.toNat < 65536 := addr.isLt
  have hc : Config.memWords = 65536 := rfl
  unfold Memory.writeWord
  exact Memory.wf_writeByte _ _ _ (Memory.wf_writeByte m _ _ hw (by omega)) (by omega)

theorem Memory.readByte_below (m : Memory) (lo n : Nat) (hw : m.wfFrom lo = true) (hn : n < lo) :
    Memory.readByte m n = 0 := by
  induction m generalizing lo with
  | nil => rfl
  | cons c rest ih =>
    obtain ⟨k, v⟩ := c
    simp only [Memory.wfFrom, Bool.and_eq_true, decide_eq_true_eq] at hw
    have hk : k ≠ n := by omega
    simp only [Memory.readByte, hk, if_false]
    exact ih (k + 1) hw.2 (by omega)

end Sys2Proof.Machine
end

