-- ==== Sys2Proof/Laws/Operands.lean ====
section
/-! SUPPORT. Everything operand resolution and a write to a location can do (40_execution_loop.md
R100-R112, R115). -/

namespace Sys2Proof.Machine

/-! ### `resolve`: reads R, SP and memory; writes PC, SP and CYC only -/

@[simp] theorem resolve_regs (q : Operand) (s : State) : (resolve q s).2.regs = s.regs := by
  cases q <;> rfl

@[simp] theorem resolve_o (q : Operand) (s : State) : (resolve q s).2.o = s.o := by
  cases q <;> rfl

@[simp] theorem resolve_mem (q : Operand) (s : State) : (resolve q s).2.mem = s.mem := by
  cases q <;> rfl

@[simp] theorem resolve_skip (q : Operand) (s : State) : (resolve q s).2.skip = s.skip := by
  cases q <;> rfl

@[simp] theorem resolve_status (q : Operand) (s : State) : (resolve q s).2.status = s.status := by
  cases q <;> rfl

@[simp] theorem resolve_session (q : Operand) (s : State) : (resolve q s).2.session = s.session := by
  cases q <;> rfl

@[simp] theorem resolve_hostCalls (q : Operand) (s : State) : (resolve q s).2.hostCalls = s.hostCalls := by
  cases q <;> rfl

theorem resolve_pc (q : Operand) (s : State) :
    (resolve q s).2.pc = s.pc + BitVec.ofNat 16 q.trailing.length := by
  cases q <;> simp [resolve, Operand.trailing]

theorem resolve_cyc (q : Operand) (s : State) : (resolve q s).2.cyc = s.cyc + q.trailing.length := by
  cases q <;> simp [resolve, Operand.trailing]

/-- SP after an operand has been resolved: only POP and PUSH move it (R107, R109). -/
def spAfter (q : Operand) (v : Word) : Word :=
  match q with
  | .pop => v + 1
  | .push => v - 1
  | _ => v

theorem resolve_sp (q : Operand) (s : State) : (resolve q s).2.sp = spAfter q s.sp := by
  cases q <;> rfl

/-- `resolve` in one equation. -/
theorem resolve_state (q : Operand) (s : State) :
    (resolve q s).2 = { s with
      sp := spAfter q s.sp
      pc := s.pc + BitVec.ofNat 16 q.trailing.length
      cyc := s.cyc + q.trailing.length } := by
  cases q <;> simp [resolve, spAfter, Operand.trailing, State.setSp, State.takeTrailing, State.setPc,
    State.charge]

/-! ### `resolvePair` and `resolveAll` -/

@[simp] theorem resolvePair_regs (a b : Operand) (s : State) : (resolvePair a b s).st.regs = s.regs := by
  simp [resolvePair]

@[simp] theorem resolvePair_o (a b : Operand) (s : State) : (resolvePair a b s).st.o = s.o := by
  simp [resolvePair]

@[simp] theorem resolvePair_mem (a b : Operand) (s : State) : (resolvePair a b s).st.mem = s.mem := by
  simp [resolvePair]

@[simp] theorem resolvePair_skip (a b : Operand) (s : State) : (resolvePair a b s).st.skip = s.skip := by
  simp [resolvePair]

@[simp] theorem resolvePair_status (a b : Operand) (s : State) : (resolvePair a b s).st.status = s.status := by
  simp [resolvePair]

@[simp] theorem resolvePair_session (a b : Operand) (s : State) : (resolvePair a b s).st.session = s.session := by
  simp [resolvePair]

@[simp] theorem resolvePair_hostCalls (a b : Operand) (s : State) : (resolvePair a b s).st.hostCalls = s.hostCalls := by
  simp [resolvePair]

@[simp] theorem resolveAll_regs (qs : List Operand) (s : State) : (resolveAll qs s).regs = s.regs := by
  induction qs generalizing s with
  | nil => rfl
  | cons q qs ih => simp [resolveAll, ih]

@[simp] theorem resolveAll_o (qs : List Operand) (s : State) : (resolveAll qs s).o = s.o := by
  induction qs generalizing s with
  | nil => rfl
  | cons q qs ih => simp [resolveAll, ih]

@[simp] theorem resolveAll_mem (qs : List Operand) (s : State) : (resolveAll qs s).mem = s.mem := by
  induction qs generalizing s with
  | nil => rfl
  | cons q qs ih => simp [resolveAll, ih]

@[simp] theorem resolveAll_skip (qs : List Operand) (s : State) : (resolveAll qs s).skip = s.skip := by
  induction qs generalizing s with
  | nil => rfl
  | cons q qs ih => simp [resolveAll, ih]

@[simp] theorem resolveAll_status (qs : List Operand) (s : State) : (resolveAll qs s).status = s.status := by
  induction qs generalizing s with
  | nil => rfl
  | cons q qs ih => simp [resolveAll, ih]

@[simp] theorem resolveAll_session (qs : List Operand) (s : State) : (resolveAll qs s).session = s.session := by
  induction qs generalizing s with
  | nil => rfl
  | cons q qs ih => simp [resolveAll, ih]

@[simp] theorem resolveAll_hostCalls (qs : List Operand) (s : State) : (resolveAll qs s).hostCalls = s.hostCalls := by
  induction qs generalizing s with
  | nil => rfl
  | cons q qs ih => simp [resolveAll, ih]

theorem trailingCount_cons (q : Operand) (qs : List Operand) :
    trailingCount (q :: qs) = q.trailing.length + trailingCount qs := by
  simp [trailingCount]

theorem resolveAll_cyc (qs : List Operand) (s : State) :
    (resolveAll qs s).cyc = s.cyc + trailingCount qs := by
  induction qs generalizing s with
  | nil => rfl
  | cons q qs ih =>
    rw [resolveAll, ih, resolve_cyc, trailingCount_cons]
    omega

theorem resolveAll_pc (qs : List Operand) (s : State) :
    (resolveAll qs s).pc = s.pc + BitVec.ofNat 16 (trailingCount qs) := by
  induction qs generalizing s with
  | nil => simp [resolveAll, trailingCount]
  | cons q qs ih =>
    rw [resolveAll, ih, resolve_pc, trailingCount_cons, BitVec.ofNat_add, BitVec.add_assoc]

theorem resolvePair_eq_resolveAll (a b : Operand) (s : State) :
    (resolvePair a b s).st = resolveAll [a, b] s := rfl

theorem resolvePair_cyc (a b : Operand) (s : State) :
    (resolvePair a b s).st.cyc = s.cyc + trailingCount [a, b] := by
  rw [resolvePair_eq_resolveAll, resolveAll_cyc]

theorem resolvePair_pc (a b : Operand) (s : State) :
    (resolvePair a b s).st.pc = s.pc + BitVec.ofNat 16 (trailingCount [a, b]) := by
  rw [resolvePair_eq_resolveAll, resolveAll_pc]

/-! ### `writeLoc`: writes at most the location -/

@[simp] theorem State.writeLoc_skip (s : State) (l : Loc) (v : Word) : (s.writeLoc l v).skip = s.skip := by
  cases l <;> rfl

@[simp] theorem State.writeLoc_status (s : State) (l : Loc) (v : Word) : (s.writeLoc l v).status = s.status := by
  cases l <;> rfl

@[simp] theorem State.writeLoc_cyc (s : State) (l : Loc) (v : Word) : (s.writeLoc l v).cyc = s.cyc := by
  cases l <;> rfl

@[simp] theorem State.writeLoc_session (s : State) (l : Loc) (v : Word) : (s.writeLoc l v).session = s.session := by
  cases l <;> rfl

@[simp] theorem State.writeLoc_hostCalls (s : State) (l : Loc) (v : Word) : (s.writeLoc l v).hostCalls = s.hostCalls := by
  cases l <;> rfl

theorem State.writeLoc_sp (s : State) (l : Loc) (v : Word) :
    (s.writeLoc l v).sp = if l = .stackPointer then v else s.sp := by
  cases l <;> simp [State.writeLoc]

theorem State.writeLoc_pc (s : State) (l : Loc) (v : Word) :
    (s.writeLoc l v).pc = if l = .programCounter then v else s.pc := by
  cases l <;> simp [State.writeLoc]

theorem State.writeLoc_o (s : State) (l : Loc) (v : Word) :
    (s.writeLoc l v).o = if l = .overflow then v else s.o := by
  cases l <;> simp [State.writeLoc]

theorem State.writeLoc_reg (s : State) (l : Loc) (v : Word) (q : Reg) :
    (s.writeLoc l v).regs.get q = if l = .register q then v else s.regs.get q := by
  cases l with
  | register r =>
    simp only [State.writeLoc, State.setReg_regs, RegFile.get_set, Loc.register.injEq]
    by_cases h : q = r
    · rw [if_pos h, if_pos h.symm]
    · rw [if_neg h, if_neg (Ne.symm h)]
  | _ => simp [State.writeLoc]

theorem State.writeLoc_readWord (s : State) (l : Loc) (v a : Word) :
    (s.writeLoc l v).mem.readWord a = if l = .memory a then v else s.mem.readWord a := by
  cases l with
  | memory b =>
    simp only [State.writeLoc, State.writeMem_mem, Memory.readWord_writeWord, Loc.memory.injEq]
    by_cases h : a = b
    · rw [if_pos h, if_pos h.symm]
    · rw [if_neg h, if_neg (Ne.symm h)]
  | _ => simp [State.writeLoc]

/-- Reading a written location gives the word, but for an immediate, which keeps its own (R102). -/
theorem State.readLoc_writeLoc (s : State) (l : Loc) (v : Word) (h : ∀ w, l ≠ .immediate w) :
    (s.writeLoc l v).readLoc l = v := by
  cases l with
  | immediate w => exact absurd rfl (h w)
  | _ => simp [State.writeLoc, State.readLoc]

theorem State.writeLoc_wf (s : State) (l : Loc) (v : Word) (h : s.mem.wf = true) :
    (s.writeLoc l v).mem.wf = true := by
  cases l with
  | memory a => exact Memory.wf_writeWord s.mem a v h
  | _ => exact h

/-! ### `commit`: O, then the location -/

@[simp] theorem State.commit_skip (s : State) (l : Loc) (out : AluOut) : (s.commit l out).skip = s.skip := by
  obtain ⟨_ | _, _ | _⟩ := out <;> simp [State.commit]

@[simp] theorem State.commit_status (s : State) (l : Loc) (out : AluOut) : (s.commit l out).status = s.status := by
  obtain ⟨_ | _, _ | _⟩ := out <;> simp [State.commit]

@[simp] theorem State.commit_cyc (s : State) (l : Loc) (out : AluOut) : (s.commit l out).cyc = s.cyc := by
  obtain ⟨_ | _, _ | _⟩ := out <;> simp [State.commit]

@[simp] theorem State.commit_session (s : State) (l : Loc) (out : AluOut) : (s.commit l out).session = s.session := by
  obtain ⟨_ | _, _ | _⟩ := out <;> simp [State.commit]

@[simp] theorem State.commit_hostCalls (s : State) (l : Loc) (out : AluOut) : (s.commit l out).hostCalls = s.hostCalls := by
  obtain ⟨_ | _, _ | _⟩ := out <;> simp [State.commit]

theorem State.commit_wf (s : State) (l : Loc) (out : AluOut) (h : s.mem.wf = true) :
    (s.commit l out).mem.wf = true := by
  obtain ⟨_ | _, _ | _⟩ := out <;> simp only [State.commit]
  · exact h
  · exact State.writeLoc_wf _ _ _ h
  · exact h
  · exact State.writeLoc_wf _ _ _ h

/-! ### The host's writes (10_state.md R39) -/

@[simp] theorem State.hostWrites_skip (s : State) (ws : List HostWrite) : (s.hostWrites ws).skip = s.skip := by
  induction ws generalizing s with
  | nil => rfl
  | cons w ws ih => rw [State.hostWrites, ih]; cases w <;> rfl

@[simp] theorem State.hostWrites_status (s : State) (ws : List HostWrite) : (s.hostWrites ws).status = s.status := by
  induction ws generalizing s with
  | nil => rfl
  | cons w ws ih => rw [State.hostWrites, ih]; cases w <;> rfl

@[simp] theorem State.hostWrites_cyc (s : State) (ws : List HostWrite) : (s.hostWrites ws).cyc = s.cyc := by
  induction ws generalizing s with
  | nil => rfl
  | cons w ws ih => rw [State.hostWrites, ih]; cases w <;> rfl

@[simp] theorem State.hostWrites_session (s : State) (ws : List HostWrite) : (s.hostWrites ws).session = s.session := by
  induction ws generalizing s with
  | nil => rfl
  | cons w ws ih => rw [State.hostWrites, ih]; cases w <;> rfl

@[simp] theorem State.hostWrites_hostCalls (s : State) (ws : List HostWrite) : (s.hostWrites ws).hostCalls = s.hostCalls := by
  induction ws generalizing s with
  | nil => rfl
  | cons w ws ih => rw [State.hostWrites, ih]; cases w <;> rfl

theorem State.hostWrites_wf (s : State) (ws : List HostWrite) (h : s.mem.wf = true) :
    (s.hostWrites ws).mem.wf = true := by
  induction ws generalizing s with
  | nil => exact h
  | cons w ws ih =>
    refine ih _ ?_
    cases w with
    | mem a v => exact Memory.wf_writeWord s.mem a v h
    | _ => exact h

end Sys2Proof.Machine
end

