-- ==== Sys2Proof/Laws/Exec.lean ====
section
/-! SUPPORT. Everything `exec` can do, once per shared operation, and the inversion of `exec` and of `step`:
if it answers a next state, then it is one of these. -/

namespace Sys2Proof.Machine

/-! ### The shared course of a basic instruction -/

@[simp] theorem runAlu_skip (f : Word → Word → AluOut) (c : Nat) (a b : Operand) (s : State) :
    (runAlu f c a b s).skip = s.skip := by simp [runAlu]

@[simp] theorem runAlu_status (f : Word → Word → AluOut) (c : Nat) (a b : Operand) (s : State) :
    (runAlu f c a b s).status = s.status := by simp [runAlu]

@[simp] theorem runAlu_session (f : Word → Word → AluOut) (c : Nat) (a b : Operand) (s : State) :
    (runAlu f c a b s).session = s.session := by simp [runAlu]

@[simp] theorem runAlu_hostCalls (f : Word → Word → AluOut) (c : Nat) (a b : Operand) (s : State) :
    (runAlu f c a b s).hostCalls = s.hostCalls := by simp [runAlu]

theorem runAlu_cyc (f : Word → Word → AluOut) (c : Nat) (a b : Operand) (s : State) :
    (runAlu f c a b s).cyc = s.cyc + trailingCount [a, b] + c := by
  simp [runAlu, resolvePair_cyc]

theorem runAlu_wf (f : Word → Word → AluOut) (c : Nat) (a b : Operand) (s : State) (h : s.mem.wf = true) :
    (runAlu f c a b s).mem.wf = true :=
  State.commit_wf _ _ _ (by rw [resolvePair_mem]; exact h)

/-- What a basic instruction leaves alone: everything but its location, O and CYC. -/
theorem runAlu_keptOutside (f : Word → Word → AluOut) (c : Nat) (a b : Operand) (s : State) :
    KeptOutside (resolvePair a b s).la (resolvePair a b s).st (runAlu f c a b s) := by
  simp only [runAlu]
  generalize resolvePair a b s = r
  generalize f r.aVal r.bVal = out
  have key : ∀ (u : State) (v : Word), KeptOutside r.la r.st u → KeptOutside r.la r.st (u.writeLoc r.la v) := by
    intro u v ⟨hr, hsp, hpc, hm, hk, hst, hse, hh⟩
    refine ⟨?_, ?_, ?_, ?_, by simpa using hk, by simpa using hst, by simpa using hse, by simpa using hh⟩
    · intro q hq
      rw [State.writeLoc_reg, if_neg hq]
      exact hr q hq
    · intro h
      rw [State.writeLoc_sp, if_neg h]
      exact hsp h
    · intro h
      rw [State.writeLoc_pc, if_neg h]
      exact hpc h
    · intro n hn
      rw [← hm n hn]
      cases hl : r.la with
      | memory addr =>
        have := hn addr hl
        simp only [State.writeLoc, State.writeMem_mem, Memory.readByte_writeWord]
        rw [if_neg this.2, if_neg this.1]
      | _ => rfl
  have base : ∀ o : Word, KeptOutside r.la r.st (r.st.setO o) := fun _ =>
    ⟨fun _ _ => rfl, fun _ => rfl, fun _ => rfl, fun _ _ => rfl, rfl, rfl, rfl, rfl⟩
  obtain ⟨_ | o, _ | v⟩ := out
  · exact base r.st.o
  · exact key r.st v (base r.st.o)
  · exact base o
  · exact key _ v (base o)

/-- The result stands in the location, if it can be written. -/
theorem runAlu_result (f : Word → Word → AluOut) (c : Nat) (a b : Operand) (s : State) (v : Word)
    (hv : (f (resolvePair a b s).aVal (resolvePair a b s).bVal).a = some v)
    (hw : (resolvePair a b s).la.writable) : (runAlu f c a b s).readLoc (resolvePair a b s).la = v := by
  have hi : ∀ w, (resolvePair a b s).la ≠ .immediate w := by
    intro w h
    rw [h] at hw
    exact hw
  have hc : ∀ (u : State) (l : Loc), (u.charge c).readLoc l = u.readLoc l := by
    intro u l
    cases l <;> rfl
  rw [runAlu, hc, State.commit, hv]
  exact State.readLoc_writeLoc _ _ _ hi

/-- O, where it is not the location: what the instruction computes for it, else what it was. -/
theorem runAlu_o (f : Word → Word → AluOut) (c : Nat) (a b : Operand) (s : State)
    (hl : (resolvePair a b s).la ≠ .overflow) :
    (runAlu f c a b s).o = (f (resolvePair a b s).aVal (resolvePair a b s).bVal).o.getD (resolvePair a b s).st.o := by
  simp only [runAlu, State.charge_o]
  generalize f (resolvePair a b s).aVal (resolvePair a b s).bVal = out
  obtain ⟨_ | o, _ | v⟩ := out <;> simp [State.commit, State.writeLoc_o, hl]

/-! ### Comparisons -/

@[simp] theorem runIf_regs (p : Word → Word → Bool) (a b : Operand) (s : State) :
    (runIf p a b s).regs = s.regs := by simp [runIf]

@[simp] theorem runIf_o (p : Word → Word → Bool) (a b : Operand) (s : State) :
    (runIf p a b s).o = s.o := by simp [runIf]

@[simp] theorem runIf_mem (p : Word → Word → Bool) (a b : Operand) (s : State) :
    (runIf p a b s).mem = s.mem := by simp [runIf]

@[simp] theorem runIf_status (p : Word → Word → Bool) (a b : Operand) (s : State) :
    (runIf p a b s).status = s.status := by simp [runIf]

@[simp] theorem runIf_session (p : Word → Word → Bool) (a b : Operand) (s : State) :
    (runIf p a b s).session = s.session := by simp [runIf]

@[simp] theorem runIf_hostCalls (p : Word → Word → Bool) (a b : Operand) (s : State) :
    (runIf p a b s).hostCalls = s.hostCalls := by simp [runIf]

theorem runIf_cyc (p : Word → Word → Bool) (a b : Operand) (s : State) :
    (runIf p a b s).cyc = s.cyc + trailingCount [a, b] + (2 + (runIf p a b s).skip.toNat) := by
  simp [runIf, resolvePair_cyc]

/-! ### Syscalls (43_extended.md R188) -/

/-- A syscall that lets the machine go on has no effect, or the effect of some host writes. -/
theorem syscall_next (id : Word) (s t : State) (h : syscall id s = .next t) :
    (syscallEntry s.session.syscallTable id = none ∧ t = s) ∨
    ∃ ws, t = s.countHostCall.hostWrites ws := by
  unfold syscall at h
  split at h
  · next e he =>
    unfold afterSyscall at h
    split at h
    · next ws _ => injection h with h; exact .inr ⟨ws, h.symm⟩
    · cases h
  · next he => injection h with h; exact .inl ⟨he, h.symm⟩

theorem syscall_not_refused (id : Word) (s : State) (r : Refusal) : syscall id s ≠ .refused r := by
  unfold syscall
  split
  · unfold afterSyscall
    split <;> intro h <;> cases h
  · intro h; cases h

/-- A syscall moves neither SKIP, status, CYC nor the session, and keeps memory's canonical form. -/
theorem syscall_frame (id : Word) (s t : State) (h : syscall id s = .next t) :
    t.skip = s.skip ∧ t.status = s.status ∧ t.cyc = s.cyc ∧ t.session = s.session ∧
    (s.mem.wf = true → t.mem.wf = true) := by
  rcases syscall_next id s t h with ⟨_, rfl⟩ | ⟨ws, rfl⟩
  · exact ⟨rfl, rfl, rfl, rfl, fun h => h⟩
  · simp only [State.hostWrites_skip, State.hostWrites_status, State.hostWrites_cyc,
      State.hostWrites_session, State.countHostCall_skip, State.countHostCall_status,
      State.countHostCall_cyc, State.countHostCall_session, true_and]
    exact fun hw => State.hostWrites_wf _ _ hw

/-! ### `exec` -/

/-- Everything an executed instruction that answers a next state can have done. -/
theorem exec_cases (i : Instr) (s t : State) (h : exec i s = .next t) :
    (∃ f c a b, i.operands = [a, b] ∧ c = handlerCost i s.skip ∧ 1 ≤ c ∧ c ≤ 3 ∧ t = runAlu f c a b s) ∨
    (∃ p a b, i.operands = [a, b] ∧ (∀ k, handlerCost i k = 2 + k.toNat) ∧ t = runIf p a b s) ∨
    (∃ b, i = .jsr b ∧ t = ((((resolve b s).2.pushWord (resolve b s).2.pc).setPc
      ((resolve b s).2.readLoc (resolve b s).1)).charge 2)) ∨
    (∃ b, i = .sys b ∧ (resolve b s).2.readLoc (resolve b s).1 = 0 ∧
      t = ((resolve b s).2.halt.charge 1)) ∨
    (∃ b u, i = .sys b ∧ (resolve b s).2.readLoc (resolve b s).1 ≠ 0 ∧
      syscall ((resolve b s).2.readLoc (resolve b s).1) (resolve b s).2 = .next u ∧ t = u.charge 1) := by
  cases i with
  | jsr b => injection h with h; exact .inr (.inr (.inl ⟨b, rfl, h.symm⟩))
  | sys b =>
    refine .inr (.inr (.inr ?_))
    simp only [exec, execSys] at h
    split at h
    · next h0 => injection h with h; exact .inl ⟨b, rfl, h0, h.symm⟩
    · next h0 =>
      split at h
      · next u hu => injection h with h; exact .inr ⟨b, u, rfl, h0, hu, h.symm⟩
      · cases h
      · cases h
  | ife a b | ifn a b | ifg a b | ifb a b =>
    injection h with h
    exact .inr (.inl ⟨_, a, b, rfl, fun _ => rfl, h.symm⟩)
  | _ a b =>
    injection h with h
    exact .inl ⟨_, _, a, b, rfl, rfl, by simp [handlerCost], by simp [handlerCost], h.symm⟩

theorem exec_not_refused (i : Instr) (s : State) (r : Refusal) : exec i s ≠ .refused r := by
  cases i with
  | sys b =>
    simp only [exec, execSys]
    split
    · intro h; cases h
    · split
      · intro h; cases h
      · intro h; cases h
      · next f hf => exact absurd hf (syscall_not_refused _ _ f)
  | _ => intro h; cases h

/-! ### Fetching -/

/-- Decoding does not see the words an instruction does not have: a fetch decodes as if it read all three. -/
theorem fetchDecode_eq (s : State) :
    fetchDecode s =
      decode s.session.sysExtOpcode (s.readMem s.pc) (s.readMem (s.pc + 1)) (s.readMem (s.pc + 2)) := by
  refine decode_congr _ _ _ _ _ _ (fun h => ?_) (fun h => ?_) <;> simp only [fetchWord, if_pos h] <;> rfl

/-! ### `step` -/

/-- Everything a step that answers a next state can have done. -/
theorem step_cases (s t : State) (h : step s = .next t) :
    (s.status ≠ .run ∧ t = s) ∨
    (s.status = .run ∧ s.skip = true ∧ t = skipped (fetchDecode s) (afterFetch s)) ∨
    (s.status = .run ∧ s.skip = false ∧ ∃ i, fetchDecode s = .instr i ∧ exec i (afterFetch s) = .next t) ∨
    (s.status = .run ∧ s.skip = false ∧ ∃ xop b, fetchDecode s = .undefinedExt xop b ∧
      t = undefinedExtended xop b (s.readMem s.pc) s.pc (afterFetch s)) := by
  unfold step stepWith at h
  split at h
  · next hr =>
    split at h
    · next hk => injection h with h; exact .inr (.inl ⟨hr, hk, h.symm⟩)
    · next hk =>
      have hk : s.skip = false := by simpa using hk
      unfold executed at h
      split at h
      · next i hd => exact .inr (.inr (.inl ⟨hr, hk, i, hd, h⟩))
      · next xop b hd => injection h with h; exact .inr (.inr (.inr ⟨hr, hk, xop, b, hd, h.symm⟩))
  · next hr => injection h with h; exact .inl ⟨by rw [hr]; exact fun e => (by cases e), h.symm⟩
  · next hr => injection h with h; exact .inl ⟨by rw [hr]; exact fun e => (by cases e), h.symm⟩

/-- A skipped step in one equation (40_execution_loop.md R116). -/
theorem skipped_eq (d : Decoded) (s : State) :
    skipped d s = { s with
      pc := s.pc + BitVec.ofNat 16 (trailingCount d.operands)
      cyc := s.cyc + trailingCount d.operands
      sp := if s.session.skipStackEffect = .discard then s.sp else (resolveAll d.operands s).sp
      skip := false } := by
  have hp := resolveAll_pc d.operands s
  have hc := resolveAll_cyc d.operands s
  unfold skipped
  cases hs : s.session.skipStackEffect <;>
    simp [State.setSkip, State.setSp, hp, hc]

/-- The undefined extended opcodes in one equation (43_extended.md R189). -/
theorem undefinedExtended_eq (xop : BitVec 6) (b : Operand) (w a : Word) (s : State) :
    undefinedExtended xop b w a s =
      if s.session.undefExtPolicy = .fault then
        (resolve b s).2.setStatus (.faulted (.illegalExtOpcode xop w a))
      else (resolve b s).2.charge 1 := by
  unfold undefinedExtended
  cases s.session.undefExtPolicy <;> rfl

/-- What a word that decodes to an undefined extended opcode holds (30_encoding.md R79). -/
theorem decode_undefinedExt (sx : BitVec 6) (w n1 n2 : Word) (xop : BitVec 6) (b : Operand)
    (h : decode sx w n1 n2 = .undefinedExt xop b) :
    opField w = 0 ∧ aField w = xop ∧ b = Operand.ofCode (bField w) n1 ∧ xop ≠ Config.jsrExtOpcode ∧ xop ≠ sx := by
  unfold decode at h
  split at h
  · next h0 =>
    unfold decodeExtended at h
    split at h
    · cases h
    · next h1 =>
      split at h
      · cases h
      · next h2 => injection h with hx hb; subst hx; exact ⟨h0, rfl, hb.symm, h1, h2⟩
  · cases h

end Sys2Proof.Machine
end

