-- ==== Sys2Proof/Laws/Accesses.lean ====
section
/-! SUPPORT. Resolution, latching and fetching with another memory that agrees on the words listed as read
(20_memory.md R55). -/

namespace Sys2Proof.Machine

/-- Memory `m` agrees with that of `s` on every word listed as read. -/
def AgreesOn (m : Memory) (s : State) (l : List Access) : Prop :=
  ∀ x : Word, Access.read x ∈ l → m.readWord x = s.readMem x

theorem AgreesOn.append {m : Memory} {s : State} {l k : List Access} (h : AgreesOn m s (l ++ k)) :
    AgreesOn m s l ∧ AgreesOn m s k :=
  ⟨fun x hx => h x (List.mem_append_left _ hx), fun x hx => h x (List.mem_append_right _ hx)⟩

theorem resolve_withMem (q : Operand) (s : State) (m : Memory) :
    resolve q { s with mem := m } = ((resolve q s).1, { (resolve q s).2 with mem := m }) := by
  cases q <;> rfl

theorem resolvePair_withMem (a b : Operand) (s : State) (m : Memory) :
    resolvePair a b { s with mem := m } =
      { resolvePair a b s with st := { (resolvePair a b s).st with mem := m } } := by
  simp only [resolvePair, resolve_withMem]

theorem resolveAll_withMem (qs : List Operand) (s : State) (m : Memory) :
    resolveAll qs { s with mem := m } = { resolveAll qs s with mem := m } := by
  induction qs generalizing s with
  | nil => rfl
  | cons q qs ih => simp only [resolveAll, resolve_withMem, ih]

theorem readLoc_withMem (l : Loc) (s : State) (m : Memory) (h : AgreesOn m s l.reads) :
    State.readLoc { s with mem := m } l = s.readLoc l := by
  cases l with
  | memory x => exact h x List.mem_cons_self
  | _ => rfl

theorem fetchAccesses_length (s : State) : (fetchAccesses s).length = wordLength (s.readMem s.pc) := by
  simp [fetchAccesses]

theorem wordLength_pos (w : Word) : 0 < wordLength w := by
  unfold wordLength
  split <;> omega

theorem fetchWord_withMem (s : State) (m : Memory) (k : Nat) (h : AgreesOn m s (fetchAccesses s)) :
    (State.readMem { s with mem := m } s.pc = s.readMem s.pc) ∧
    fetchWord { s with mem := m } k = fetchWord s k := by
  have hr : ∀ j, j < wordLength (s.readMem s.pc) →
      m.readWord (s.pc + BitVec.ofNat 16 j) = s.readMem (s.pc + BitVec.ofNat 16 j) := fun j hj =>
    h _ (List.mem_map.mpr ⟨j, List.mem_range.mpr hj, rfl⟩)
  have h0 : State.readMem { s with mem := m } s.pc = s.readMem s.pc := by
    simpa [State.readMem] using hr 0 (wordLength_pos _)
  refine ⟨h0, ?_⟩
  unfold fetchWord
  simp only [h0]
  split
  · next hk => exact hr k hk
  · rfl

theorem fetchDecode_withMem (s : State) (m : Memory) (h : AgreesOn m s (fetchAccesses s)) :
    fetchDecode { s with mem := m } = fetchDecode s := by
  simp only [fetchDecode, (fetchWord_withMem s m 1 h).1, (fetchWord_withMem s m 1 h).2,
    (fetchWord_withMem s m 2 h).2]

end Sys2Proof.Machine
end

