-- ==== Sys2Proof/Laws/Image.lean ====
section
/-! SUPPORT. What an image holds, and what memory built from words reads as (70_reset_and_hazards.md R222). -/

namespace Sys2Proof.Machine

theorem imageWords_of_even (order : ImageByteOrder) : ∀ bytes : List Byte, bytes.length % 2 = 0 →
    ∃ ws, imageWords order bytes = some ws ∧ 2 * ws.length = bytes.length ∧
      ∀ k, ws.getD k 0 =
        if 2 * k + 1 < bytes.length then imageWord order (bytes.getD (2 * k) 0) (bytes.getD (2 * k + 1) 0) else 0
  | [], _ => ⟨[], rfl, rfl, by simp⟩
  | [_], h => by simp at h
  | x :: y :: rest, h => by
    obtain ⟨ws, h1, h2, h3⟩ := imageWords_of_even order rest (by simp at h; omega)
    refine ⟨imageWord order x y :: ws, by simp [imageWords, h1], by simp; omega, fun k => ?_⟩
    cases k with
    | zero => simp
    | succ k =>
      have e : 2 * (k + 1) = 2 * k + 1 + 1 := by omega
      rw [e]
      simp only [List.getD_cons_succ, h3 k, List.length_cons]
      congr 1
      simp

theorem imageWords_of_odd (order : ImageByteOrder) : ∀ bytes : List Byte, bytes.length % 2 = 1 →
    imageWords order bytes = none
  | [], h => by simp at h
  | [_], _ => rfl
  | x :: y :: rest, h => by simp [imageWords, imageWords_of_odd order rest (by simp at h; omega)]

theorem readByte_cellIfNonzero_append (m : Memory) (c lo n : Nat) (v : Byte) (hw : m.wfFrom lo = true)
    (hc : c < lo) :
    Memory.readByte (cellIfNonzero c v ++ m) n = if n = c then v else Memory.readByte m n := by
  unfold cellIfNonzero
  by_cases h : v = 0
  · by_cases e : n = c
    · subst e
      simp [h, Memory.readByte_below m lo n hw hc]
    · simp [h, e]
  · rw [if_neg h]
    simp [Memory.readByte, eq_comm]

theorem wfFrom_cellIfNonzero_append (m : Memory) (lo c : Nat) (v : Byte) (hw : m.wfFrom (c + 1) = true)
    (hc : c < 2 * Config.memWords) (hl : lo ≤ c) : Memory.wfFrom lo (cellIfNonzero c v ++ m) = true := by
  unfold cellIfNonzero
  by_cases h : v = 0
  · simpa [h] using Memory.wfFrom_mono m (Nat.le_succ_of_le hl) hw
  · rw [if_neg h]
    simp [Memory.wfFrom, hw, hc, hl]
    exact h

/-- Memory built from words is canonical, and the word at `j` is the one placed there, or 0. -/
theorem ofWords_wf_and_read (ws : List Word) : ∀ k, k + ws.length ≤ Config.memWords →
    (Memory.ofWords k ws).wfFrom (2 * k) = true ∧
    ∀ j, Memory.readByte (Memory.ofWords k ws) (2 * j + 1) ++ Memory.readByte (Memory.ofWords k ws) (2 * j) =
      if k ≤ j then ws.getD (j - k) 0 else 0 := by
  induction ws with
  | nil => exact fun k _ => ⟨rfl, fun j => by simp [Memory.ofWords, Memory.readByte]⟩
  | cons w ws ih =>
    intro k h
    simp only [List.length_cons] at h
    obtain ⟨h1, h2⟩ := ih (k + 1) (by omega)
    have hw : Memory.wfFrom (2 * k + 1) (cellIfNonzero (2 * k + 1) (highByte w) ++ Memory.ofWords (k + 1) ws) =
        true := wfFrom_cellIfNonzero_append _ _ _ _ h1 (by omega) (Nat.le_refl _)
    refine ⟨wfFrom_cellIfNonzero_append _ _ _ _ hw (by omega) (Nat.le_refl _), fun j => ?_⟩
    have hr : ∀ n, Memory.readByte (Memory.ofWords k (w :: ws)) n =
        if n = 2 * k then lowByte w else if n = 2 * k + 1 then highByte w
        else Memory.readByte (Memory.ofWords (k + 1) ws) n := fun n => by
      rw [Memory.ofWords, readByte_cellIfNonzero_append _ _ _ _ _ hw (by omega),
        readByte_cellIfNonzero_append _ _ _ _ _ h1 (by omega)]
    rw [hr, hr]
    by_cases e : j = k
    · subst e
      simp [highByte_append_lowByte]
    · rw [if_neg (by omega), if_neg (by omega), if_neg (by omega), if_neg (by omega), h2 j]
      by_cases hk : k + 1 ≤ j
      · have e1 : j - k = j - (k + 1) + 1 := by omega
        rw [if_pos hk, if_pos (by omega), e1, List.getD_cons_succ]
      · rw [if_neg hk, if_neg (by omega)]

/-- Loading keeps the canonical form. -/
theorem load_wf (order : ImageByteOrder) (bytes : List Byte) (s t : State) (h : load order bytes s = .next t) :
    t.mem.wf = true := by
  unfold load at h
  split at h
  · cases h
  · split at h
    · next ws _ hl =>
      injection h with h
      subst h
      exact (ofWords_wf_and_read ws 0 (by simpa using hl)).1
    · cases h

end Sys2Proof.Machine
end

