-- ==== Sys2Proof/Laws/PerInstr.lean ====
section
/-! SUPPORT. Facts about every instruction as syntax, one lemma per constructor. -/

namespace Sys2Proof.Laws.EncodedLength

open Sys2Proof.Machine

/-- The words of an instruction: one, and one per operand with a trailing word (30_encoding.md R76), at most
three (00_scope.md R6). -/
def Statement (i : Instr) : Prop :=
  ∀ sx : BitVec 6, (encode sx i).length = 1 + trailingCount i.operands ∧ (encode sx i).length ≤ 3

theorem basic (op : BitVec 4) (a b : Operand) :
    (encodeBasic op a b).length = 1 + trailingCount [a, b] ∧ (encodeBasic op a b).length ≤ 3 := by
  have ha := a.trailing_length_le
  have hb := b.trailing_length_le
  simp only [encodeBasic, trailingCount, List.length_cons, List.length_append, List.map, List.sum_cons,
    List.sum_nil]
  omega

theorem extended (xop : BitVec 6) (b : Operand) :
    (encodeExtended xop b).length = 1 + trailingCount [b] ∧ (encodeExtended xop b).length ≤ 3 := by
  have hb := b.trailing_length_le
  simp only [encodeExtended, trailingCount, List.length_cons, List.map, List.sum_cons, List.sum_nil]
  omega

theorem set (a b : Operand) : Statement (.set a b) := fun _ => basic _ a b

theorem add (a b : Operand) : Statement (.add a b) := fun _ => basic _ a b

theorem sub (a b : Operand) : Statement (.sub a b) := fun _ => basic _ a b

theorem mul (a b : Operand) : Statement (.mul a b) := fun _ => basic _ a b

theorem div (a b : Operand) : Statement (.div a b) := fun _ => basic _ a b

theorem mod (a b : Operand) : Statement (.mod a b) := fun _ => basic _ a b

theorem shl (a b : Operand) : Statement (.shl a b) := fun _ => basic _ a b

theorem shr (a b : Operand) : Statement (.shr a b) := fun _ => basic _ a b

theorem and (a b : Operand) : Statement (.and a b) := fun _ => basic _ a b

theorem bor (a b : Operand) : Statement (.bor a b) := fun _ => basic _ a b

theorem xor (a b : Operand) : Statement (.xor a b) := fun _ => basic _ a b

theorem ife (a b : Operand) : Statement (.ife a b) := fun _ => basic _ a b

theorem ifn (a b : Operand) : Statement (.ifn a b) := fun _ => basic _ a b

theorem ifg (a b : Operand) : Statement (.ifg a b) := fun _ => basic _ a b

theorem ifb (a b : Operand) : Statement (.ifb a b) := fun _ => basic _ a b

theorem jsr (b : Operand) : Statement (.jsr b) := fun _ => extended _ b

theorem sys (b : Operand) : Statement (.sys b) := fun _ => extended _ b

end Sys2Proof.Laws.EncodedLength
end

