-- ==== Sys2Proof/Tests/Slice0.lean ====
section
/-! SUPPORT. Tests of the model on words and results taken from spec/95_test_vectors.md (the vector's name
stands before each), and for every statement with hypotheses a witness that meets them. -/

namespace Sys2Proof.Tests

open Sys2Proof.Machine

/-! ### Helpers -/

def next? (o : Host.Outcome State Fault Refusal) : Option State :=
  match o with
  | .next t => some t
  | .fault _ => none
  | .refused _ => none

/-- The reset state with A, B and C given. -/
def abc (a b c : Word) : State :=
  { State.reset with regs := { RegFile.zero with a := a, b := b, c := c } }

/-- `n` steps with the words stored from address 0. -/
def run (n : Nat) (ws : List Word) (s : State) : Option State :=
  match n with
  | 0 => some (s.storeWords 0 ws)
  | k + 1 => (run k ws s).bind (fun t => next? (step t))

/-- A, O and CYC after one step of a one-word instruction. -/
def aOCyc (w : Word) (s : State) : Option (Word × Word × Nat) :=
  (run 1 [w] s).map (fun t => (t.regs.a, t.o, t.cyc))

/-- SKIP and CYC after one step of a one-word instruction. -/
def skipCyc (w : Word) (s : State) : Option (Bool × Nat) :=
  (run 1 [w] s).map (fun t => (t.skip, t.cyc))

/-- PC, SP, CYC and the word at `x` after one step. -/
def pcSpMem (ws : List Word) (s : State) (x : Word) : Option (Word × Word × Nat × Word) :=
  (run 1 ws s).map (fun t => (t.pc, t.sp, t.cyc, t.readMem x))

def withStack (sp x v : Word) : State := { State.reset with sp := sp }.writeMem x v

/-! ### WellFormed -/

theorem test_wf_literal_31 : (Instr.set (.reg .A) (.lit 31)).wellFormed = true := by decide

theorem test_wf_refuses_literal_32_in_b : (Instr.set (.reg .A) (.lit 32)).wellFormed = false := by decide

theorem test_wf_refuses_literal_32_in_a : (Instr.add (.lit 32) (.reg .A)).wellFormed = false := by decide

theorem test_wf_refuses_literal_in_jsr : (Instr.jsr (.lit 0xFFFF)).wellFormed = false := by decide

theorem test_wf_refuses_literal_in_sys : (Instr.sys (.lit 40)).wellFormed = false := by decide

/-! ### Decoding: the words of the spec's examples and programs -/

theorem test_decode_set : decode 2 0x7DE1 0x1000 0x0020 = .instr (.set (.nextInd 0x1000) (.nextLit 0x20)) := by
  decide

theorem test_decode_set_plus : decode 2 0x2161 0x2000 0 = .instr (.set (.regNext .I 0x2000) (.regInd .A)) := by
  decide

theorem test_decode_add : decode 2 0x0402 0 0 = .instr (.add (.reg .A) (.reg .B)) := by decide

theorem test_decode_add_o : decode 2 0x7422 0 0 = .instr (.add (.reg .C) .o) := by decide

theorem test_decode_sub : decode 2 0x7803 0x1000 0 = .instr (.sub (.reg .A) (.nextInd 0x1000)) := by decide

theorem test_decode_mul : decode 2 0x0404 0 0 = .instr (.mul (.reg .A) (.reg .B)) := by decide

theorem test_decode_div : decode 2 0x05D5 0 0 = .instr (.div .o (.reg .B)) := by decide

theorem test_decode_mod : decode 2 0x0426 0 0 = .instr (.mod (.reg .C) (.reg .B)) := by decide

theorem test_decode_shl : decode 2 0x9037 0 0 = .instr (.shl (.reg .X) (.lit 4)) := by decide

theorem test_decode_shr : decode 2 0x8428 0 0 = .instr (.shr (.reg .C) (.lit 1)) := by decide

theorem test_decode_and : decode 2 0x0409 0 0 = .instr (.and (.reg .A) (.reg .B)) := by decide

theorem test_decode_bor : decode 2 0x040A 0 0 = .instr (.bor (.reg .A) (.reg .B)) := by decide

theorem test_decode_xor : decode 2 0x000B 0 0 = .instr (.xor (.reg .A) (.reg .A)) := by decide

theorem test_decode_ife : decode 2 0x0C2C 0 0 = .instr (.ife (.reg .C) (.reg .X)) := by decide

theorem test_decode_ifn : decode 2 0xC00D 0 0 = .instr (.ifn (.reg .A) (.lit 0x10)) := by decide

theorem test_decode_ifg : decode 2 0x882E 0 0 = .instr (.ifg (.reg .C) (.lit 2)) := by decide

theorem test_decode_ifb : decode 2 0x7DDF 0x8000 0 = .instr (.ifb .o (.nextLit 0x8000)) := by decide

theorem test_decode_jsr : decode 2 0x6810 0 0 = .instr (.jsr .push) := by decide

theorem test_decode_sys : decode 2 0x7C20 0x1234 0 = .instr (.sys (.nextLit 0x1234)) := by decide

theorem test_decode_undefined : decode 2 0x6BF0 0 0 = .undefinedExt 0x3F .push := by decide

/-- Another `sysExtOpcode` (R7) moves SYS and leaves 0x02 undefined. -/
theorem test_decode_sysExtOpcode :
    decode 0x3F 0x8020 0 0 = .undefinedExt 0x02 (.lit 0) ∧ decode 0x3F 0x83F0 0 0 = .instr (.sys (.lit 0)) := by
  decide

theorem test_encode_set : encode 2 (.set (.nextInd 0x1000) (.nextLit 0x20)) = [0x7DE1, 0x1000, 0x0020] := by
  decide

theorem test_encode_jsr : encode 2 (.jsr (.nextLit 0x18)) = [0x7C10, 0x0018] := by decide

/-! ### Operand forms -/

/-- V-OP1 -/
theorem test_regNext_wraps :
    (run 1 [0x4401, 0xFFFF] ((abc 0 5 0).writeMem 4 0xBEEF)).map (fun t => (t.regs.a, t.pc, t.cyc)) =
      some (0xBEEF, 2, 2) := by decide

/-- V-OP8 -/
theorem test_fetch_wraps :
    (next? (step (({ State.reset with pc := 0xFFFF }.writeMem 0xFFFF 0x7C01).writeMem 0 0x1234))).map
      (fun t => (t.regs.a, t.pc, t.cyc)) = some (0x1234, 1, 2) := by decide

/-- V-OP11 -/
theorem test_pop_wraps :
    (run 1 [0x6001] (withStack 0xFFFF 0xFFFF 9)).map (fun t => (t.regs.a, t.sp)) = some (9, 0) := by decide

/-- V-OP13 -/
theorem test_peek :
    (run 1 [0x6401] (withStack 0x10 0x10 0x77)).map (fun t => (t.regs.a, t.sp)) = some (0x77, 0x10) := by decide

/-! ### Instructions -/

/-- V-AR36 -/
theorem test_set_memory :
    pcSpMem [0x7DE1, 0x1000, 0x0020] State.reset 0x1000 = some (3, 0, 3, 0x20) := by decide

/-- V-OP5 -/
theorem test_set_push_sp :
    pcSpMem [0x6DA1] { State.reset with sp := 0x100 } 0xFF = some (1, 0xFF, 1, 0xFF) := by decide

/-- V-AR3 -/
theorem test_add_wraps : aOCyc 0x0402 (abc 0xFFFF 1 0) = some (0, 1, 2) := by decide

/-- V-AR5 -/
theorem test_add_to_o : aOCyc 0x85D2 { State.reset with o := 0xFFFF } = some (0, 0, 2) := by decide

/-- V-AR8 -/
theorem test_sub_borrows : aOCyc 0x0403 (abc 0 1 0) = some (0xFFFF, 1, 2) := by decide

/-- V-AR9 -/
theorem test_sub_self : aOCyc 0x0003 (abc 0x1234 0 0) = some (0, 0, 2) := by decide

/-- V-AR11 -/
theorem test_mul_max : aOCyc 0x0404 (abc 0xFFFF 0xFFFF 0) = some (1, 0xFFFE, 2) := by decide

/-- V-AR14 -/
theorem test_div_fraction : aOCyc 0x0405 (abc 10 3 0) = some (3, 0x5555, 3) := by decide

/-- V-AR17 -/
theorem test_div_by_zero : aOCyc 0x0405 { abc 10 0 0 with o := 0x1111 } = some (0, 0, 3) := by decide

/-- V-AR19 -/
theorem test_mod : aOCyc 0x0406 (abc 10 3 0) = some (1, 0, 3) := by decide

/-- V-AR20 -/
theorem test_mod_by_zero_keeps_o : aOCyc 0x0406 { abc 10 0 0 with o := 0x1111 } = some (0, 0x1111, 3) := by
  decide

/-- V-AR24 -/
theorem test_shl_20 : aOCyc 0x0407 (abc 0x1234 20 0) = some (0, 0x2340, 2) := by decide

/-- V-AR25 -/
theorem test_shl_32 : aOCyc 0x0407 (abc 0x1234 32 0) = some (0, 0, 2) := by decide

/-- V-AR27 -/
theorem test_shr_keeps_a : aOCyc 0x0408 (abc 0x1234 4 0) = some (0x1234, 0x4000, 2) := by decide

/-- V-AR29 -/
theorem test_shr_20 : aOCyc 0x0408 (abc 0x1234 20 0) = some (0x1234, 0x0123, 2) := by decide

/-- V-AR32 -/
theorem test_and : aOCyc 0x0409 (abc 0xF0F0 0xFF00 0) = some (0xF000, 0, 1) := by decide

/-- V-AR33 -/
theorem test_bor : aOCyc 0x040A (abc 0xF0F0 0xFF00 0) = some (0xFFF0, 0, 1) := by decide

/-- V-AR34 -/
theorem test_xor : aOCyc 0x040B (abc 0xF0F0 0xFF00 0) = some (0x0FF0, 0, 1) := by decide

/-- V-IF1 -/
theorem test_ife_true : skipCyc 0x040C (abc 1 1 0) = some (false, 2) := by decide

/-- V-IF2 -/
theorem test_ife_false : skipCyc 0x040C (abc 1 2 0) = some (true, 3) := by decide

/-- V-IF3 -/
theorem test_ifn_self : skipCyc 0x000D (abc 5 0 0) = some (true, 3) := by decide

/-- V-IF4 -/
theorem test_ifg_unsigned : skipCyc 0x040E (abc 0xFFFF 1 0) = some (false, 2) := by decide

/-- V-IF5 -/
theorem test_ifg_false : skipCyc 0x040E (abc 1 0xFFFF 0) = some (true, 3) := by decide

/-- V-IF7 -/
theorem test_ifb_false : skipCyc 0x040F (abc 0x0F 0xF0 0) = some (true, 3) := by decide

/-- V-IF8 -/
theorem test_ifb_true : skipCyc 0x040F (abc 0x0F 0x18 0) = some (false, 2) := by decide

/-- V-EX4 -/
theorem test_jsr_pop : pcSpMem [0x6010] (withStack 0x100 0x100 0x40) 0x100 = some (0x40, 0x100, 2, 1) := by decide

/-- V-EX5 -/
theorem test_jsr_push : pcSpMem [0x6810] (withStack 0x100 0xFF 0x40) 0xFE = some (0x40, 0xFE, 2, 1) := by decide

/-- V-EX7 -/
theorem test_sys_zero :
    (run 1 [0x8020] State.reset).map (fun t => (t.status, t.pc, t.cyc)) = some (.halted, 1, 1) := by decide

/-- V-EX10 -/
theorem test_sys_unknown :
    (run 1 [0x7C20, 0x1234] State.reset).map (fun t => (t.status, t.pc, t.cyc)) = some (.run, 2, 2) := by decide

/-- V-EX13 -/
theorem test_undefined_faults :
    (run 1 [0x7C30, 0x1234] State.reset).map (fun t => (t.status, t.pc, t.cyc)) =
      some (.faulted (.illegalExtOpcode 0x03 0x7C30 0), 2, 1) := by decide

/-- V-EX16 -/
theorem test_undefined_nop :
    (run 1 [0] (State.resetWith { Config.defaultSession with undefExtPolicy := .nop })).map
      (fun t => (t.status, t.pc, t.cyc)) = some (.run, 1, 1) := by decide

/-- V-EX15 -/
theorem test_undefined_skipped :
    (run 1 [0] { State.reset with skip := true }).map (fun t => (t.status, t.skip, t.pc, t.cyc)) =
      some (.run, false, 1, 0) := by decide

/-! ### Skips, batches, image, assembler -/

/-- V-IF6 -/
theorem test_skip_three_words :
    (run 2 [0x040C, 0x7DE1, 0x1000, 0x0020, 0x8461] (abc 1 2 0)).map
      (fun t => (t.pc, t.skip, t.cyc, t.readMem 0x1000)) = some (4, false, 5, 0) := by decide

/-- V-IF10 and V-IF11 -/
theorem test_skip_stack_effect :
    (run 2 [0x040C, 0x6011] { abc 1 2 0 with sp := 0x100 }).map (fun t => (t.sp, t.regs.b)) = some (0x100, 2) ∧
    (run 2 [0x040C, 0x6011] { abc 1 2 0 with
      sp := 0x100, session := { Config.defaultSession with skipStackEffect := .apply } }).map
      (fun t => (t.sp, t.regs.b)) = some (0x101, 2) := by decide

/-- V-IF13, first batch -/
theorem test_execute_three :
    (match execute 3 ((abc 1 2 0).storeWords 0 [0x040C, 0x8461]) with
    | .next p => some (p.2, p.1.skip, p.1.cyc)
    | .fault _ => none
    | .refused _ => none) = some (true, true, 3) := by decide

/-- V-LD1 and V-LD2 -/
theorem test_load_orders :
    (next? (load .lowFirst [0x01, 0x7C, 0x30, 0x00] State.reset)).map (fun t => (t.readMem 0, t.readMem 1)) =
      some (0x7C01, 0x0030) ∧
    next? (load .highFirst [0x7C, 0x01, 0x00, 0x30] State.reset) =
      next? (load .lowFirst [0x01, 0x7C, 0x30, 0x00] State.reset) := by decide

/-- V-AR36 by R55: three words of the instruction, and the write of A; SET does not read A. -/
theorem test_accesses_set :
    stepAccesses (State.reset.storeWords 0 [0x7DE1, 0x1000, 0x0020]) =
      [.read 0, .read 1, .read 2, .write 0x1000] := by decide

/-- V-EX4 by R55: the instruction word, the latched target at 0x100, and the push to the same address. -/
theorem test_accesses_jsr_pop :
    stepAccesses ((withStack 0x100 0x100 0x40).storeWords 0 [0x6010]) =
      [.read 0, .read 0x100, .write 0x100] := by decide

/-- The exit value of program P2, and two codes given as an argument (R38). -/
theorem test_exit_code :
    (abc 0x000E 7 2).exitCode ⟨3, 4⟩ .programValue = 14 ∧ (abc 0x000E 7 2).exitCode ⟨3, 4⟩ .success = 3 ∧
    (abc 0x000E 7 2).exitCode ⟨3, 4⟩ .failure = 4 := by decide

/-- V-AS1 and V-AS2 -/
theorem test_relative_patch : relativePatch 0x10 0x4 = 0xB ∧ relativePatch 0x2 0x8 = 0xFFF9 := by decide

/-- A syntax for the tests: the two literals 31 and 32, and no relative marker (92_eei_decisions.md D25). -/
def syn : AsmSyntax where
  numLiteral t := if t = ['3', '1'] then some 31 else if t = ['3', '2'] then some 32
    else if t = ['b', 'i', 'g'] then some 65536 else none
  relative _ := none
  charCode c := BitVec.ofNat 16 c.toNat

def labels : Token → Option Word := fun t => if t = ['L'] then some 0x10 else none

/-- V-AS4, and `POP` and `[L+x]` by R86 and R87 -/
theorem test_assemble :
    assembleInstr syn labels 2 0 ['S', 'E', 'T'] [['a'], ['3', '1']] = .ok [0xFC01] ∧
    assembleInstr syn labels 2 0 ['s', 'e', 't'] [['A'], ['3', '2']] = .ok [0x7C01, 0x20] ∧
    assembleInstr syn labels 2 0 ['s', 'e', 't'] [['p', 'c'], ['P', 'O', 'P']] = .ok [0x61C1] ∧
    assembleInstr syn labels 2 0 ['s', 'e', 't'] [['[', 'L', '+', 'x', ']'], ['b']] = .ok [0x0531, 0x10] := by
  refine ⟨rfl, rfl, rfl, rfl⟩

/-! ### Witnesses: states and operands that meet each statement's hypotheses, clause by clause -/

theorem witness_DecodeInvertsEncode :
    (0x02 : BitVec 6) ≠ Config.jsrExtOpcode ∧ (0x3F : BitVec 6) ≠ Config.jsrExtOpcode ∧
    (Instr.set (.regNext .J 0xFFFF) (.lit 31)).wellFormed = true ∧ (Instr.sys (.lit 0)).wellFormed = true := by
  decide

theorem witness_EncodeInvertsDecode :
    (0x02 : BitVec 6) ≠ Config.jsrExtOpcode ∧
    decode 0x02 0x7DE1 0x1000 0x0020 = .instr (.set (.nextInd 0x1000) (.nextLit 0x20)) := by decide

theorem witness_OpcodeMap :
    opField 0x7C01 = 0x1 ∧ opField 0x7DDF = 0xF ∧ (opField 0x7C10 = 0 ∧ aField 0x7C10 = 0x01) ∧
    (opField 0x8020 = 0 ∧ aField 0x8020 = 0x02 ∧ (0x02 : BitVec 6) ≠ 0x01) ∧
    (opField 0x0000 = 0 ∧ aField 0x0000 ≠ 0x01 ∧ aField 0x0000 ≠ 0x02) := by decide

theorem witness_LengthFromFirstWord :
    hasTrailingWord 0x0F = false ∧ hasTrailingWord 0x10 = true ∧ hasTrailingWord 0x17 = true ∧
    hasTrailingWord 0x18 = false ∧ hasTrailingWord 0x1D = false ∧ hasTrailingWord 0x1E = true ∧
    hasTrailingWord 0x1F = true ∧ hasTrailingWord 0x20 = false ∧
    (opField 0x7DE1 ≠ 0 ∧ wordLength 0x7DE1 = 3) ∧ (opField 0x7DF0 = 0 ∧ wordLength 0x7DF0 = 2) := by decide

/-- Each range of codes at its ends. -/
theorem witness_OperandCodeMap :
    Operand.ofCode 0x00 9 = .reg .A ∧ Operand.ofCode 0x07 9 = .reg .J ∧ Operand.ofCode 0x08 9 = .regInd .A ∧
    Operand.ofCode 0x0F 9 = .regInd .J ∧ Operand.ofCode 0x10 9 = .regNext .A 9 ∧
    Operand.ofCode 0x17 9 = .regNext .J 9 ∧ Operand.ofCode 0x18 9 = .pop ∧ Operand.ofCode 0x1D 9 = .o ∧
    Operand.ofCode 0x1E 9 = .nextInd 9 ∧ Operand.ofCode 0x1F 9 = .nextLit 9 ∧ Operand.ofCode 0x20 9 = .lit 0 ∧
    Operand.ofCode 0x3F 9 = .lit 31 := by decide

theorem witness_TrailingWordsAreReadAtPc :
    (fetchDecode (State.reset.storeWords 0 [0x7DE1, 0x1000, 0x0020])).operands = [.nextInd 0x1000, .nextLit 0x20] ∧
    (fetchDecode (State.reset.storeWords 0 [0x7C01, 0x0030])).operands = [.reg .A, .nextLit 0x30] ∧
    (fetchDecode (State.reset.storeWords 0 [0x7C10, 0x0018])).operands = [.nextLit 0x18] := by decide

/-- A running core at `7C01 0030`; also the hypotheses of StepChargesTheCostTable and StepKeepsSession. -/
theorem witness_StepRunsDecodedInstruction :
    let s := State.reset.storeWords 0 [0x7C01, 0x0030]
    s.status = .run ∧ s.skip = false ∧
    decode s.session.sysExtOpcode (s.readMem s.pc) (s.readMem (s.pc + 1)) (s.readMem (s.pc + 2)) =
      .instr (.set (.reg .A) (.nextLit 0x30)) ∧
    (next? (step s)).isSome = true := by decide

/-- A pending skip, under either policy, before a three-word instruction with a PUSH in it. -/
theorem witness_SkippedStepDiscardsInstruction :
    let s := { State.reset with skip := true }.storeWords 0 [0x7DA1, 0x0064]
    s.status = .run ∧ s.skip = true ∧ s.session.skipStackEffect = .discard ∧
    (next? (step s)).map (fun t => (t.sp, t.pc, t.cyc)) = some (0, 2, 1) ∧
    (next? (step { s with session := { s.session with skipStackEffect := .apply } })).map (fun t => t.sp) =
      some 0xFFFF := by decide

/-- Both stopped statuses; also the hypothesis of ExecuteOfStoppedCore. -/
theorem witness_StoppedCoreStays :
    ({ State.reset with status := .halted }).status ≠ .run ∧
    ({ State.reset with status := .faulted (.illegalExtOpcode 0 0 0) }).status ≠ .run := by decide

theorem witness_UndefinedExtendedOpcode :
    let s := State.reset
    s.status = .run ∧ opField (s.readMem s.pc) = 0 ∧ aField (s.readMem s.pc) ≠ 0x01 ∧
    aField (s.readMem s.pc) ≠ s.session.sysExtOpcode ∧ s.skip = false ∧ s.session.undefExtPolicy = .fault := by
  decide

/-- A as a register, as O, and as a literal: the three cases of a destination in the result statements. -/
theorem witness_destinations :
    (resolvePair (.reg .A) (.reg .B) State.reset).la = .register .A ∧
    Loc.writable (.register .A) ∧ (Loc.register .A) ≠ .overflow ∧
    (resolvePair .o (.reg .B) State.reset).la = .overflow ∧ Loc.writable .overflow ∧
    (resolvePair (.lit 5) (.reg .B) State.reset).la = .immediate 5 := by
  refine ⟨rfl, trivial, by decide, rfl, trivial, rfl⟩

/-- Counts 31 and 32, and the other policy: the two cases of SHL and SHR. -/
theorem witness_shift_cases :
    (resolvePair (.reg .A) (.lit 31) State.reset).bVal.toNat < 32 ∧
    ¬ (resolvePair (.reg .A) (.nextLit 32) State.reset).bVal.toNat < 32 ∧
    State.reset.session.shiftWide = .mathematical ∧
    { Config.defaultSession with shiftWide := .hostDefined }.shiftWide ≠ .mathematical := by decide

theorem witness_LiteralDestinationDiscardsResult :
    Instr.set ∈ operandWriters ∧ Instr.xor ∈ operandWriters ∧ (∃ v, Operand.lit 5 = .lit v) ∧
    (∃ nw, Operand.nextLit 5 = .nextLit nw) := by
  refine ⟨by simp [operandWriters], by simp [operandWriters], ⟨_, rfl⟩, ⟨_, rfl⟩⟩

theorem witness_ArithmeticLaws :
    let r := resolvePair (.reg .A) (.reg .B) (abc 10 3 0)
    r.la.writable ∧ r.la ≠ .overflow ∧ r.bVal ≠ 0 := by
  refine ⟨trivial, by decide, by decide⟩

/-- MOD leaves O alone, ADD is one of the six: both sides of the clause about O. -/
theorem witness_ComputingFrame :
    Instr.mod ∈ Instr.shr :: operandWriters ∧ Instr.add ∈ overflowWriters ∧
    (∃ t, exec (.mod (.reg .A) (.reg .B)) (abc 10 3 0) = .next t) ∧
    (∀ f ∈ overflowWriters, Instr.mod (.reg .A) (.reg .B) ≠ f (.reg .A) (.reg .B)) := by
  refine ⟨by simp [operandWriters], by simp [overflowWriters], ⟨_, rfl⟩, by simp [overflowWriters]⟩

theorem witness_ComparisonFrame :
    Instr.ife ∈ comparisons ∧ ∃ t, exec (.ife (.reg .A) .pop) State.reset = .next t := by
  refine ⟨by simp [comparisons], _, rfl⟩

theorem witness_DivisionByZeroCompletes :
    (resolvePair (.reg .A) (.reg .B) (abc 10 0 0)).bVal = 0 := by decide

theorem witness_JsrPushesReturnAddress : opField 0x7C10 = 0 ∧ aField 0x7C10 = 0x01 := by decide

/-- A table with two entries for id 5. -/
def tableState : State :=
  State.resetWith { Config.defaultSession with syscallTable := [⟨4, 0, 0⟩, ⟨5, 1, 7⟩, ⟨5, 2, 8⟩] }

theorem witness_SysHaltsOrCallsHandler :
    (State.reset.readLoc (resolve (.lit 0) State.reset).1 = 0) ∧
    (State.reset.readLoc (resolve (.lit 5) State.reset).1 ≠ 0 ∧
      ∀ e ∈ State.reset.session.syscallTable, e.id ≠ 5) ∧
    (tableState.session.syscallTable = [⟨4, 0, 0⟩] ++ (⟨5, 1, 7⟩ : SyscallEntry) :: [⟨5, 2, 8⟩] ∧
      (∀ d ∈ [(⟨4, 0, 0⟩ : SyscallEntry)], d.id ≠ 5) ∧
      tableState.readLoc (resolve (.lit 5) tableState).1 = 5) := by decide

theorem witness_SysFrame :
    (∃ t, exec (.sys (.lit 5)) State.reset = .next t) ∧
    (resolve (.lit 5) State.reset).2.readLoc (resolve (.lit 5) State.reset).1 ≠ 0 ∧
    (∀ e ∈ State.reset.session.syscallTable,
      e.id ≠ (resolve (.lit 5) State.reset).2.readLoc (resolve (.lit 5) State.reset).1) := by
  refine ⟨⟨_, rfl⟩, by decide, by decide⟩

theorem witness_CanonicalMemoriesAreEqual :
    Memory.wf [] = true ∧ Memory.wf [(0, 1), (131071, 0xFF)] = true ∧ Memory.wf [(131072, 1)] = false ∧
    Memory.wf [(3, 0)] = false := by decide

/-- The write at PC, and the write at the trailing word. -/
theorem witness_FetchSeesEarlierWrite :
    let s := State.reset.storeWords 0 [0x7C01, 0x0030]
    let seen (x w : Word) : Word → Word := fun a => if a = x then w else s.readMem a
    s.status = .run ∧ s.skip = false ∧
    decode s.session.sysExtOpcode (seen 0 0x0402 s.pc) (seen 0 0x0402 (s.pc + 1)) (seen 0 0x0402 (s.pc + 2)) =
      .instr (.add (.reg .A) (.reg .B)) ∧
    decode s.session.sysExtOpcode (seen 1 5 s.pc) (seen 1 5 (s.pc + 1)) (seen 1 5 (s.pc + 2)) =
      .instr (.set (.reg .A) (.nextLit 5)) := by decide

/-- The empty file, the longest one, and the two kinds that are refused. -/
theorem witness_loads :
    ([] : List Byte).length % 2 = 0 ∧ (List.replicate 131072 (1 : Byte)).length ≤ 131072 ∧
    (List.replicate 131072 (1 : Byte)).length % 2 = 0 ∧ [(7 : Byte)].length % 2 = 1 ∧
    (List.replicate 131074 (1 : Byte)).length % 2 = 0 ∧ 131072 < (List.replicate 131074 (1 : Byte)).length := by
  simp only [List.length_replicate, List.length_nil, List.length_cons]
  decide

theorem witness_ExecuteOfStoppedCore :
    ∃ t, load .lowFirst [1, 2] { State.reset with status := .halted } = .next t := ⟨_, rfl⟩

/-- A batch that answers: V-IF13. Also for ExecuteOvershootsByLessThanFive. -/
theorem witness_ExecuteEndsOnlyWhenDone :
    ∃ t c, execute 3 ((abc 1 2 0).storeWords 0 [0x040C, 0x8461]) = .next (t, c) := ⟨_, _, rfl⟩

theorem witness_HookFrame :
    callHook State.reset = .next State.reset ∧ State.reset.session.hookPresent = false := ⟨rfl, rfl⟩

theorem witness_StepKeepsInvariant :
    State.reset.inv = true ∧ (next? (step State.reset)).map State.inv = some true := by decide

theorem witness_ResetMeetsInvariant :
    Config.defaultSession.wf = true ∧ tableState.session.wf = true ∧
    { Config.defaultSession with sysExtOpcode := 0x01 }.wf = false := by decide

/-- A failing IFE and then the skipped `SET I, 1`, both leaving the core running. -/
theorem witness_TwoStepsMakeProgress :
    (run 1 [0x040C, 0x8461] (abc 1 2 0)).map (fun t => (t.status, t.skip)) = some (.run, true) ∧
    (run 2 [0x040C, 0x8461] (abc 1 2 0)).map (fun u => (u.status, u.skip)) = some (.run, false) := by decide

theorem witness_OnlyComparisonsSetSkip :
    (run 1 [0x040C] (abc 1 2 0)).map State.skip = some true ∧
    ((abc 1 2 0).storeWords 0 [0x040C]).status = .run := by decide

theorem witness_StatusLeavesRunOnlyBySysOrFault :
    (run 1 [0x8020] State.reset).map State.status = some .halted ∧
    (run 1 [0x0000] State.reset).map State.status = some (.faulted (.illegalExtOpcode 0 0 0)) := by decide

theorem witness_RegisterWriters :
    (run 1 [0x8461] State.reset).map (fun t => t.regs.get .I) = some 1 ∧ State.reset.regs.get .I = 0 := by decide

/-- SP by PUSH, by a skipped PUSH under `apply`, as operand A, and by JSR. -/
theorem witness_StackPointerWriters :
    (run 1 [0x8DA1] State.reset).map State.sp = some 0xFFFF ∧
    (run 1 [0x8DA1] { State.reset with
      skip := true, session := { Config.defaultSession with skipStackEffect := .apply } }).map State.sp =
        some 0xFFFF ∧
    (run 1 [0x7DB1, 0x8000] State.reset).map State.sp = some 0x8000 ∧
    (run 1 [0x7C10, 0x0018] State.reset).map State.sp = some 0xFFFF := by decide

/-- O by ADD and as operand A. -/
theorem witness_OverflowWritersAreR25 :
    (run 1 [0x0402] (abc 0xFFFF 1 0)).map State.o = some 1 ∧
    (run 1 [0x7DD1, 0x1234] State.reset).map State.o = some 0x1234 ∧ State.reset.o = 0 := by decide

/-- Memory as operand A, and by the push of JSR. -/
theorem witness_MemoryWriters :
    pcSpMem [0x7DE1, 0x1000, 0x0020] State.reset 0x1000 = some (3, 0, 3, 0x20) ∧
    pcSpMem [0x7C10, 0x0018] State.reset 0xFFFF = some (0x18, 0xFFFF, 3, 2) ∧ State.reset.readMem 0x1000 = 0 := by
  decide

theorem witness_CycleCounterIsUnobservable :
    State.reset.session.syscallTable = [] ∧ (next? (step State.reset)).isSome = true := by decide

/-- `7DE1 1000 0020` at 0, which reads the words 0, 1 and 2 (test_accesses_set). -/
def threeWords : State := State.reset.storeWords 0 [0x7DE1, 0x1000, 0x0020]

/-- A memory that agrees with it there and differs at 0x1000. -/
def otherMemory : Memory := threeWords.mem.writeWord 0x1000 7

theorem otherMemory_reads :
    otherMemory.readWord 0 = threeWords.readMem 0 ∧ otherMemory.readWord 1 = threeWords.readMem 1 ∧
    otherMemory.readWord 2 = threeWords.readMem 2 ∧
    otherMemory.readWord 0x1000 ≠ threeWords.readMem 0x1000 := by decide

theorem witness_StepTouchesOnlyItsAccesses :
    threeWords.status = .run ∧ { threeWords with skip := true }.skip = true ∧
    threeWords.session.syscallTable = [] ∧ (∃ t, step threeWords = .next t) ∧
    ∀ x : Word, Access.read x ∈ stepAccesses threeWords → otherMemory.readWord x = threeWords.readMem x := by
  refine ⟨rfl, rfl, rfl, ⟨_, rfl⟩, fun x hx => ?_⟩
  have h : stepAccesses threeWords = [.read 0, .read 1, .read 2, .write 0x1000] := test_accesses_set
  rw [h] at hx
  simp only [List.mem_cons, Access.read.injEq, reduceCtorEq, List.not_mem_nil, or_false] at hx
  rcases hx with rfl | rfl | rfl
  · exact otherMemory_reads.1
  · exact otherMemory_reads.2.1
  · exact otherMemory_reads.2.2.1

/-- Tokens of each kind: 31, 32, a number too large, a register, a label. -/
theorem witness_AsmBareTokens :
    (specialOfToken ['3', '1'] = none ∧ unbracket ['3', '1'] = none ∧ syn.numLiteral ['3', '1'] = some 31) ∧
    (specialOfToken ['3', '2'] = none ∧ unbracket ['3', '2'] = none ∧ syn.numLiteral ['3', '2'] = some 32) ∧
    (specialOfToken ['b', 'i', 'g'] = none ∧ syn.numLiteral ['b', 'i', 'g'] = some 65536) ∧
    (specialOfToken ['J'] = none ∧ syn.numLiteral ['J'] = none ∧ regOfToken ['J'] = some .J) ∧
    (specialOfToken ['L'] = none ∧ unbracket ['L'] = none ∧ syn.numLiteral ['L'] = none ∧
      regOfToken ['L'] = none) := by decide

theorem witness_LabelPatchValues : labels ['L'] = some 0x10 := by decide

theorem witness_AssembledLinesAreEncodings :
    (0x02 : BitVec 6) ≠ Config.jsrExtOpcode ∧
    assembleInstr syn labels 2 0 ['J', 'S', 'R'] [['L']] = .ok [0x7C10, 0x10] := ⟨by decide, rfl⟩

end Sys2Proof.Tests
end

section
/-! The family 30_encoding.md: the fields of a word and the opcodes, the place of the trailing words, a
literal destination, and the value patched for a label. -/

namespace Sys2Proof

/-! ### Fields, decoding and the operands it gives (R70, R71, R76) -/

/-- The weights of the three fields (R70). -/
theorem toNat_eq_fields (w : Word) :
    w.toNat = (bField w).toNat * 1024 + (aField w).toNat * 16 + (opField w).toNat := by
  have hw : w.toNat < 65536 := w.isLt
  simp only [bField, aField, opField, BitVec.extractLsb'_toNat, Nat.shiftRight_eq_div_pow]
  omega

theorem decode_of_opField_ne_zero (sx : BitVec 6) (w n1 n2 : Word) (h : opField w ≠ 0) :
    decode sx w n1 n2 = .instr (decodeBasic (opField w) (Operand.ofCode (aField w) n1)
      (Operand.ofCode (bField w) (if hasTrailingWord (aField w) then n2 else n1))) := if_neg h

theorem decode_of_opField_eq_zero (sx : BitVec 6) (w n1 n2 : Word) (h : opField w = 0) :
    decode sx w n1 n2 = decodeExtended sx (aField w) (Operand.ofCode (bField w) n1) := if_pos h

theorem decodeBasic_operands (op : BitVec 4) (a b : Operand) : (decodeBasic op a b).operands = [a, b] := by
  unfold decodeBasic
  split <;> rfl

theorem decodeExtended_operands (sx xop : BitVec 6) (b : Operand) :
    (decodeExtended sx xop b).operands = [b] := by
  unfold decodeExtended
  split
  · rfl
  · split <;> rfl

theorem Operand.trailing_ofCode_cases (c : BitVec 6) (nw : Word) :
    (Operand.ofCode c nw).trailing = [] ∨ (Operand.ofCode c nw).trailing = [nw] := by
  rw [Operand.trailing_ofCode]
  split
  · exact .inr rfl
  · exact .inl rfl

end Sys2Proof

namespace Sys2Proof.Machine

/-! ### Opcodes (R72, R73) -/

/-- A nonzero opcode has the meaning the table of the basic opcodes gives it (R72). -/
theorem basicOpcode_of_decodeBasic {op : BitVec 4} {mk : Operand → Operand → Instr} (h0 : op ≠ 0)
    (h : ∀ a b, decodeBasic op a b = mk a b) : BasicOpcode op mk := by
  intro sx w n1 n2 hop
  subst hop
  rw [decode_of_opField_ne_zero sx w n1 n2 h0, h]

/-- Settles O3: the fields have their weights, each basic opcode its row of the table, and an opcode of 0 leaves
the choice to the A field. -/
theorem opcodeMap : Obligations.OpcodeMap := by
  refine ⟨toNat_eq_fields, ?basic, ?extended⟩
  case basic =>
    refine ⟨?_, ?_, ?_, ?_, ?_, ?_, ?_, ?_, ?_, ?_, ?_, ?_, ?_, ?_, ?_⟩ <;>
      exact basicOpcode_of_decodeBasic (by decide) (fun _ _ => rfl)
  case extended =>
    intro sx w n1 n2 h0 _
    rw [decode_of_opField_eq_zero sx w n1 n2 h0]
    rfl

/-! ### Trailing words (R77, R104) -/

/-- An operand that takes a trailing word leaves PC at the second word after the instruction word, any other at
the first. -/
theorem resolve_ofCode_pc_afterFetch (c : BitVec 6) (nw : Word) (s : State) :
    (resolve (Operand.ofCode c nw) (afterFetch s)).2.pc = if hasTrailingWord c then s.pc + 2 else s.pc + 1 := by
  rw [resolve_pc, Operand.trailing_ofCode, afterFetch, State.setPc_pc]
  split
  · exact BitVec.add_assoc s.pc 1 1
  · exact BitVec.add_zero _

/-- With opcode 0 the fetched operand has the word after the instruction word as its trailing word, if any. -/
theorem fetchDecode_operands_extended (s : State) (h : opField (s.readMem s.pc) = 0) :
    (fetchDecode s).operands =
      [Operand.ofCode (bField (s.readMem s.pc)) (s.readMem (afterFetch s).pc)] := by
  rw [fetchDecode_eq, decode_of_opField_eq_zero _ _ _ _ h, decodeExtended_operands]
  rfl

/-- Otherwise operand A has that word, and operand B the word at PC once A is resolved. -/
theorem fetchDecode_operands_basic (s : State) (h : opField (s.readMem s.pc) ≠ 0) :
    ∃ a, a = Operand.ofCode (aField (s.readMem s.pc)) (s.readMem (afterFetch s).pc) ∧
      (fetchDecode s).operands =
        [a, Operand.ofCode (bField (s.readMem s.pc)) (s.readMem (resolve a (afterFetch s)).2.pc)] := by
  refine ⟨_, rfl, ?_⟩
  rw [fetchDecode_eq, decode_of_opField_ne_zero _ _ _ _ h, resolve_ofCode_pc_afterFetch, apply_ite s.readMem]
  exact decodeBasic_operands _ _ _

/-- Settles O9: the operands a fetch decodes carry the words at PC, and resolution moves PC and CYC by the number
of trailing words. -/
theorem trailingWordsAreReadAtPc : Obligations.TrailingWordsAreReadAtPc := by
  intro s
  by_cases h : opField (s.readMem s.pc) = 0
  case pos =>
    rw [fetchDecode_operands_extended s h]
    refine ⟨fun a b hab => (by simp at hab), fun b hb => ?_, fun q t => ⟨resolve_pc q t, resolve_cyc q t⟩⟩
    obtain rfl := List.singleton_inj.mp hb
    exact Operand.trailing_ofCode_cases _ _
  case neg =>
    obtain ⟨a', ha', hops⟩ := fetchDecode_operands_basic s h
    rw [hops]
    refine ⟨fun a b hab => ?_, fun b hb => (by simp at hb), fun q t => ⟨resolve_pc q t, resolve_cyc q t⟩⟩
    obtain ⟨rfl, rfl⟩ : a' = a ∧ _ = b := by simpa using hab
    exact ⟨ha' ▸ Operand.trailing_ofCode_cases _ _, Operand.trailing_ofCode_cases _ _⟩

/-! ### Literal destinations (R80) -/

/-- The instructions that write A share one course, at the cost of the table (R118, R120). -/
theorem exec_of_mem_operandWriters {mk : Operand → Operand → Instr} (h : mk ∈ operandWriters) (a b : Operand)
    (s : State) : ∃ f, exec (mk a b) s = .next (runAlu f (handlerCost (mk a b) s.skip) a b s) := by
  simp only [operandWriters, List.mem_cons, List.not_mem_nil, or_false] at h
  rcases h with rfl | rfl | rfl | rfl | rfl | rfl | rfl | rfl | rfl | rfl <;> exact ⟨_, rfl⟩

/-- Committing to an immediate writes O only. -/
theorem State.commit_immediate (s : State) (v : Word) (out : AluOut) :
    s.commit (.immediate v) out = s.setO (out.o.getD s.o) := by
  obtain ⟨_ | o, _ | w⟩ := out <;> rfl

/-- With an immediate as its destination a basic instruction only resolves, writes O and charges. -/
theorem runAlu_of_immediate (f : Word → Word → AluOut) (c : Nat) (a b : Operand) (s : State) (v : Word)
    (h : (resolvePair a b s).la = .immediate v) :
    ∃ o, runAlu f c a b s = ((resolveAll [a, b] s).setO o).charge c := by
  simp only [runAlu, h, State.commit_immediate, resolvePair_eq_resolveAll]
  exact ⟨_, rfl⟩

/-- Settles O25: a literal resolves to an immediate, so the shared course writes nothing but O and CYC after
resolution. -/
theorem literalDestinationDiscardsResult : Obligations.LiteralDestinationDiscardsResult := by
  intro mk hmk a b s ha
  obtain ⟨f, hexec⟩ := exec_of_mem_operandWriters hmk a b s
  have himm : ∃ v, (resolvePair a b s).la = .immediate v := by
    rcases ha with ⟨v, rfl⟩ | ⟨nw, rfl⟩ <;> exact ⟨_, rfl⟩
  obtain ⟨v, hv⟩ := himm
  obtain ⟨o, hrun⟩ := runAlu_of_immediate f (handlerCost (mk a b) s.skip) a b s v hv
  have hcount : trailingCount [a, b] = a.trailing.length + b.trailing.length := by simp [trailingCount]
  refine ⟨_, hexec, ?_⟩
  rw [hrun, ← hcount]
  simp [resolveAll_pc, resolveAll_cyc]

/-! ### Label patches (R89) -/

theorem relativePatch_toNat (label site : Word) :
    ((relativePatch label site).toNat : Int) = ((label.toNat : Int) - site.toNat - 1) % 65536 := by
  have hl : label.toNat < 65536 := label.isLt
  have hs : site.toNat < 65536 := site.isLt
  have h1 : (1 : Word).toNat = 1 := rfl
  simp only [relativePatch, BitVec.toNat_sub, h1]
  omega

theorem patchValue_label (labels : Token → Option Word) (site addr : Word) (isRelative : Bool) (name : Token)
    (h : labels name = some addr) :
    patchValue labels site (.label isRelative name) =
      .ok (if isRelative then relativePatch addr site else addr) := by
  simp only [patchValue, h]

/-- Settles O59: a known label is patched with its address, or with its distance from the instruction. -/
theorem labelPatchValues : Obligations.LabelPatchValues := fun labels name label site h =>
  ⟨patchValue_label labels site label false name h, _, patchValue_label labels site label true name h,
    relativePatch_toNat label site⟩

end Sys2Proof.Machine
end

section
/-! The family 40_execution_loop.md: locations, the two courses of a step with what each charges, and a batch on a
stopped core. -/

namespace Sys2Proof.Machine

/-! ### Locations (R101, R102) -/

/-- Settles O7: each location reads and writes its own piece of state, and an immediate discards the write. -/
theorem locationsReadAndWrite : Obligations.LocationsReadAndWrite := fun _ _ _ _ =>
  ⟨rfl, rfl, rfl, rfl, rfl, rfl, rfl, rfl, rfl, rfl, rfl, rfl⟩

/-! ### The courses of a step (R113, R116, R119, R123) -/

theorem step_of_skip (s : State) (hrun : s.status = .run) (hskip : s.skip = true) :
    step s = .next (skipped (fetchDecode s) (afterFetch s)) := by
  simp only [step, stepWith, hrun, hskip, if_true]

theorem step_of_instr (s : State) (i : Instr) (hrun : s.status = .run) (hskip : s.skip = false)
    (hd : fetchDecode s = .instr i) : step s = exec i (afterFetch s) := by
  simp only [step, stepWith, hrun, hskip, hd, executed, Bool.false_eq_true, if_false]

/-- Settles O11: a fetch decodes the three words at PC, and the step dispatches on what they decode to. -/
theorem stepRunsDecodedInstruction : Obligations.StepRunsDecodedInstruction := fun s i hrun hskip hd =>
  step_of_instr s i hrun hskip ((fetchDecode_eq s).trans hd)

/-- The operands that decoding gives carry the words after the first that the first announces (R76). -/
theorem wordLength_eq_trailingCount (sx : BitVec 6) (w n1 n2 : Word) :
    wordLength w = 1 + trailingCount (decode sx w n1 n2).operands := by
  have hlen : ∀ (c : BitVec 6) (nw : Word),
      (Operand.ofCode c nw).trailing.length = (hasTrailingWord c).toNat := fun c nw => by
    rw [Operand.trailing_ofCode]
    cases hasTrailingWord c <;> rfl
  by_cases h0 : opField w = 0
  · rw [decode_of_opField_eq_zero sx w n1 n2 h0, decodeExtended_operands]
    simp [wordLength, h0, trailingCount, hlen]
  · rw [decode_of_opField_ne_zero sx w n1 n2 h0, Decoded.operands, decodeBasic_operands, wordLength,
      if_pos (bne_iff_ne.mpr h0)]
    simp [trailingCount, hlen, Nat.add_assoc]

/-- Settles O12: resolution of the skipped operands passes the trailing words, and the instruction word was passed
by the fetch. -/
theorem skippedStepDiscardsInstruction : Obligations.SkippedStepDiscardsInstruction := by
  intro s hrun hskip
  have hlen : wordLength (s.readMem s.pc) = 1 + trailingCount (fetchDecode s).operands :=
    wordLength_eq_trailingCount _ _ _ _
  have hpc : s.pc + BitVec.ofNat 16 (1 + trailingCount (fetchDecode s).operands) =
      s.pc + 1 + BitVec.ofNat 16 (trailingCount (fetchDecode s).operands) := by
    rw [BitVec.ofNat_add, ← BitVec.add_assoc]
    rfl
  rw [step_of_skip s hrun hskip, skipped_eq, hlen, hpc, Nat.add_sub_cancel_left]
  rfl

/-! ### What a step charges (R120) -/

theorem resolve_cyc_trailingCount (b : Operand) (s : State) :
    (resolve b s).2.cyc = s.cyc + trailingCount [b] := resolveAll_cyc [b] s

/-- An executed instruction charges its trailing words and the cost of its handler. -/
theorem exec_cyc (i : Instr) (s t : State) (h : exec i s = .next t) :
    t.cyc = s.cyc + (trailingCount i.operands + handlerCost i t.skip) := by
  rw [← Nat.add_assoc]
  rcases exec_cases i s t h with ⟨f, c, a, b, hops, hc, -, -, rfl⟩ | ⟨p, a, b, hops, hcost, rfl⟩ |
    ⟨b, rfl, rfl⟩ | ⟨b, rfl, -, rfl⟩ | ⟨b, u, rfl, -, hu, rfl⟩
  case inl => rw [runAlu_cyc, runAlu_skip, hops, hc]
  case inr.inl => rw [runIf_cyc, hops, hcost]
  case inr.inr.inl | inr.inr.inr.inl =>
    simp [Instr.operands, handlerCost, resolve_cyc_trailingCount]
  case inr.inr.inr.inr =>
    obtain ⟨-, -, hcyc, -, -⟩ := syscall_frame _ _ _ hu
    simp [Instr.operands, handlerCost, resolve_cyc_trailingCount, hcyc]

/-- An undefined extended instruction charges its trailing word, and one cycle more under `nop` (R189). -/
theorem undefinedExtended_cyc (xop : BitVec 6) (b : Operand) (w a : Word) (s : State) :
    (undefinedExtended xop b w a s).cyc =
      s.cyc + (trailingCount [b] + if s.session.undefExtPolicy = .nop then 1 else 0) := by
  rw [undefinedExtended_eq, ← Nat.add_assoc, ← resolve_cyc_trailingCount]
  cases s.session.undefExtPolicy <;> rfl

/-- Settles O47: each of the four courses of a step charges its line of the cost table, and the fetch charges
nothing. -/
theorem stepChargesTheCostTable : Obligations.StepChargesTheCostTable := by
  intro s t h
  rcases step_cases s t h with ⟨hstop, rfl⟩ | ⟨hrun, hskip, rfl⟩ | ⟨hrun, hskip, i, hd, hexec⟩ |
    ⟨hrun, hskip, xop, b, hd, rfl⟩
  case inl => rw [if_neg hstop, Nat.add_zero]
  case inr.inl =>
    rw [if_pos hrun, if_pos hskip, skipped_eq]
    rfl
  case inr.inr.inl =>
    rw [if_pos hrun, hskip, if_neg Bool.false_ne_true, hd]
    exact exec_cyc i (afterFetch s) t hexec
  case inr.inr.inr =>
    rw [if_pos hrun, hskip, if_neg Bool.false_ne_true, hd]
    exact undefinedExtended_cyc xop b (s.readMem s.pc) s.pc (afterFetch s)

/-! ### A stopped core (R123) -/

theorem batchLoop_of_stopped (start budget fuel : Nat) (s : State) (h : s.status ≠ .run) :
    batchLoop start budget fuel s = .next (s, false) := by
  unfold batchLoop
  rw [if_neg (fun hgo => h hgo.1), decide_eq_false h]

/-- A load writes memory only (R222). -/
theorem load_frame (order : ImageByteOrder) (bytes : List Byte) (s t : State) (h : load order bytes s = .next t) :
    t = { s with mem := t.mem } := by
  unfold load at h
  split at h
  · cases h
  · split at h
    · injection h with h
      rw [← h]
    · cases h

theorem load_status (order : ImageByteOrder) (bytes : List Byte) (s t : State) (h : load order bytes s = .next t) :
    t.status = s.status := by
  rw [load_frame order bytes s t h]

/-- Settles O40: the loop's guard fails at once, and of what the host can do only reset writes the status. -/
theorem executeOfStoppedCore : Obligations.ExecuteOfStoppedCore := fun s hstop =>
  ⟨fun n => batchLoop_of_stopped s.cyc n (2 * n + 1) s hstop, s.hostWrites_status,
    fun order bytes t => load_status order bytes s t, rfl⟩

end Sys2Proof.Machine
end

section
/-! The family 41_arith_logic.md: the course shared by the instructions that write A, the words they compute as
naturals, and each instruction from the two. -/

namespace Sys2Proof.Machine

/-! ### The shared course (R118, R140) -/

/-- An instruction that computes `v` for A completes with `v` in A's location and its word for O, if any, in O;
nothing else differs from the resolved state. -/
theorem runAlu_completes (f : Word → Word → AluOut) (c : Nat) (a b : Operand) (s : State) {o : Option Word}
    {v : Word} (h : f (resolvePair a b s).aVal (resolvePair a b s).bVal = ⟨o, some v⟩) :
    ∃ t, (.next (runAlu f c a b s) : Result) = .next t ∧
      ((resolvePair a b s).la.writable → t.readLoc (resolvePair a b s).la = v) ∧
      ((resolvePair a b s).la ≠ .overflow → t.o = o.getD (resolvePair a b s).st.o) ∧
      t.cyc = (resolvePair a b s).st.cyc + c ∧ KeptOutside (resolvePair a b s).la (resolvePair a b s).st t := by
  refine ⟨_, rfl, runAlu_result f c a b s v (by rw [h]), fun hl => ?_, ?_, runAlu_keptOutside f c a b s⟩
  · rw [runAlu_o f c a b s hl, h]
  · rw [runAlu_cyc, resolvePair_cyc]

/-- An instruction that computes nothing for A writes its word to O and charges, wherever A is. -/
theorem runAlu_of_no_result (f : Word → Word → AluOut) (c : Nat) (a b : Operand) (s : State) {o : Word}
    (h : f (resolvePair a b s).aVal (resolvePair a b s).bVal = ⟨some o, none⟩) :
    runAlu f c a b s = { (resolvePair a b s).st with o := o, cyc := (resolvePair a b s).st.cyc + c } := by
  rw [runAlu, h]
  rfl

/-! ### The computed words as naturals (R140) -/

theorem trunc16_toNat (n : Nat) : (trunc16 n).toNat = n % 65536 := BitVec.toNat_ofNat n 16

theorem trunc16_toNat_of_le (n : Nat) (a : Word) (h : n ≤ a.toNat) : (trunc16 n).toNat = n := by
  rw [trunc16_toNat, Nat.mod_eq_of_lt (Nat.lt_of_le_of_lt h a.isLt)]

/-- A borrow adds 65536 (R143). -/
theorem subWord_toNat (a b : Word) :
    ((trunc16 (a.toNat + 65536 - b.toNat)).toNat : Int) = ((a.toNat : Int) - b.toNat) % 65536 := by
  have hb : b.toNat < 65536 := b.isLt
  rw [trunc16_toNat]
  omega

/-- The product of two words fits in two (R144). -/
theorem mulHigh_toNat (a b : Word) : (mulHigh a b).toNat = a.toNat * b.toNat / 65536 := by
  have hlt : a.toNat * b.toNat < 65536 * 65536 := Nat.mul_lt_mul'' a.isLt b.isLt
  rw [mulHigh, trunc16_toNat, Nat.shiftRight_eq_div_pow]
  exact Nat.mod_eq_of_lt (Nat.div_lt_of_lt_mul hlt)

theorem quotientWord_toNat (a b : Word) :
    (if b = 0 then 0x0000 else trunc16 (a.toNat / b.toNat) : Word).toNat = if b = 0 then 0 else a.toNat / b.toNat := by
  split
  · rfl
  · exact trunc16_toNat_of_le _ a (Nat.div_le_self _ _)

theorem divFraction_toNat (a b : Word) :
    (divFraction a b).toNat = if b = 0 then 0 else a.toNat * 65536 / b.toNat % 65536 := by
  unfold divFraction
  split
  · rfl
  · rw [trunc16_toNat, Nat.shiftLeft_eq]

theorem remainderWord_toNat (a b : Word) :
    (if b = 0 then 0x0000 else trunc16 (a.toNat % b.toNat) : Word).toNat = if b = 0 then 0 else a.toNat % b.toNat := by
  split
  · rfl
  · exact trunc16_toNat_of_le _ a (Nat.mod_le _ _)

theorem shlWord_toNat (a b : Word) : (trunc16 (a.toNat <<< b.toNat)).toNat = a.toNat * 2 ^ b.toNat % 65536 := by
  rw [trunc16_toNat, Nat.shiftLeft_eq]

theorem shlOut_toNat (a b : Word) : (shlOut a b).toNat = a.toNat * 2 ^ b.toNat / 65536 % 65536 := by
  rw [shlOut, trunc16_toNat, Nat.shiftLeft_eq, Nat.shiftRight_eq_div_pow]

theorem shrOut_toNat (a b : Word) : (shrOut a b).toNat = a.toNat * 65536 / 2 ^ b.toNat % 65536 := by
  rw [shrOut, trunc16_toNat, Nat.shiftLeft_eq, Nat.shiftRight_eq_div_pow]

/-! ### Shift counts of 32 or more (R147, R148) -/

/-- The formula is left only by a policy other than `mathematical` and a count of 32 or more. -/
theorem shiftIsWide_eq_false_iff (w : ShiftWide) (b : Word) :
    shiftIsWide w b = false ↔ w = .mathematical ∨ b.toNat < 32 := by
  simp [shiftIsWide, Decidable.imp_iff_not_or]

theorem shiftIsWide_eq_true_iff (w : ShiftWide) (b : Word) :
    shiftIsWide w b = true ↔ ¬(w = .mathematical ∨ b.toNat < 32) := by
  rw [← shiftIsWide_eq_false_iff, Bool.not_eq_false]

theorem aluShl_of_exact (w : ShiftWide) (a b : Word) (h : w = .mathematical ∨ b.toNat < 32) :
    aluShl w a b = ⟨some (shlOut a b), some (trunc16 (a.toNat <<< b.toNat))⟩ := by
  rw [aluShl, (shiftIsWide_eq_false_iff w b).mpr h]
  rfl

theorem aluShl_of_wide (w : ShiftWide) (a b : Word) (h : ¬(w = .mathematical ∨ b.toNat < 32)) :
    aluShl w a b = ⟨some (Config.shlWide a b).2, some (Config.shlWide a b).1⟩ := by
  rw [aluShl, if_pos ((shiftIsWide_eq_true_iff w b).mpr h)]

theorem aluShr_of_exact (w : ShiftWide) (a b : Word) (h : w = .mathematical ∨ b.toNat < 32) :
    aluShr w a b = ⟨some (shrOut a b), none⟩ := by
  rw [aluShr, (shiftIsWide_eq_false_iff w b).mpr h]
  rfl

theorem aluShr_of_wide (w : ShiftWide) (a b : Word) (h : ¬(w = .mathematical ∨ b.toNat < 32)) :
    aluShr w a b = ⟨some (Config.shrWide a b), none⟩ := by
  rw [aluShr, if_pos ((shiftIsWide_eq_true_iff w b).mpr h)]

/-! ### The instructions -/

/-- Settles O15: SET computes B's latched value for A and nothing for O. -/
theorem setCopiesB : Obligations.SetCopiesB :=
  ⟨basicOpcode_of_decodeBasic (by decide) (fun _ _ => rfl), fun a b s => runAlu_completes aluSet 1 a b s rfl⟩

/-- Settles O16: the carry is the model's `carryOut`. -/
theorem addWritesSumAndCarry : Obligations.AddWritesSumAndCarry := by
  refine ⟨basicOpcode_of_decodeBasic (by decide) (fun _ _ => rfl), fun a b s => ?_⟩
  obtain ⟨t, ht, hres, ho, hrest⟩ := runAlu_completes aluAdd 2 a b s rfl
  exact ⟨t, ht, fun hw => (congrArg BitVec.toNat (hres hw)).trans (trunc16_toNat _), ho, hrest⟩

/-- Settles O17: the difference is taken over the integers. -/
theorem subWritesDifferenceAndBorrow : Obligations.SubWritesDifferenceAndBorrow := by
  refine ⟨basicOpcode_of_decodeBasic (by decide) (fun _ _ => rfl), fun a b s => ?_⟩
  obtain ⟨t, ht, hres, ho, hrest⟩ := runAlu_completes aluSub 2 a b s rfl
  refine ⟨t, ht, fun hw => ?_, ho, hrest⟩
  rw [hres hw]
  exact subWord_toNat _ _

/-- Settles O18: the high half of a product needs no reduction. -/
theorem mulWritesBothHalves : Obligations.MulWritesBothHalves := by
  refine ⟨basicOpcode_of_decodeBasic (by decide) (fun _ _ => rfl), fun a b s => ?_⟩
  obtain ⟨t, ht, hres, ho, hrest⟩ := runAlu_completes aluMul 2 a b s rfl
  exact ⟨t, ht, fun hw => (congrArg BitVec.toNat (hres hw)).trans (trunc16_toNat _),
    fun hl => (congrArg BitVec.toNat (ho hl)).trans (mulHigh_toNat _ _), hrest⟩

/-- Settles O19: the quotient is at most `a`, so it needs no reduction. -/
theorem divWritesQuotientAndFraction : Obligations.DivWritesQuotientAndFraction := by
  refine ⟨basicOpcode_of_decodeBasic (by decide) (fun _ _ => rfl), fun a b s => ?_⟩
  obtain ⟨t, ht, hres, ho, hrest⟩ := runAlu_completes aluDiv 3 a b s rfl
  exact ⟨t, ht, fun hw => (congrArg BitVec.toNat (hres hw)).trans (quotientWord_toNat _ _),
    fun hl => (congrArg BitVec.toNat (ho hl)).trans (divFraction_toNat _ _), hrest⟩

/-- Settles O20: the remainder is at most `a`, and MOD computes nothing for O. -/
theorem modWritesRemainder : Obligations.ModWritesRemainder := by
  refine ⟨basicOpcode_of_decodeBasic (by decide) (fun _ _ => rfl), fun a b s => ?_⟩
  obtain ⟨t, ht, hres, ho, hrest⟩ := runAlu_completes aluMod 3 a b s rfl
  exact ⟨t, ht, fun hw => (congrArg BitVec.toNat (hres hw)).trans (remainderWord_toNat _ _), ho, hrest⟩

/-- Settles O22, by cases on whether the shift keeps the exact formula. -/
theorem shlWritesShiftAndOverflow : Obligations.ShlWritesShiftAndOverflow := by
  refine ⟨basicOpcode_of_decodeBasic (by decide) (fun _ _ => rfl), fun a b s => ?_⟩
  by_cases h : s.session.shiftWide = .mathematical ∨ (resolvePair a b s).bVal.toNat < 32
  case pos =>
    obtain ⟨t, ht, hres, ho, hrest⟩ := runAlu_completes _ 2 a b s (aluShl_of_exact _ _ _ h)
    refine ⟨t, ht, ?_, hrest⟩
    rw [if_pos h]
    exact ⟨fun hw => (congrArg BitVec.toNat (hres hw)).trans (shlWord_toNat _ _),
      fun hl => (congrArg BitVec.toNat (ho hl)).trans (shlOut_toNat _ _)⟩
  case neg =>
    obtain ⟨t, ht, hres, ho, hrest⟩ := runAlu_completes _ 2 a b s (aluShl_of_wide _ _ _ h)
    refine ⟨t, ht, ?_, hrest⟩
    rw [if_neg h]
    exact ⟨hres, ho⟩

/-- Settles O23: SHR computes nothing for A; by cases on whether the shift keeps the exact formula. -/
theorem shrWritesOnlyOverflow : Obligations.ShrWritesOnlyOverflow := by
  refine ⟨basicOpcode_of_decodeBasic (by decide) (fun _ _ => rfl), fun a b s => ?_⟩
  by_cases h : s.session.shiftWide = .mathematical ∨ (resolvePair a b s).bVal.toNat < 32
  case pos =>
    refine ⟨_, congrArg Host.Outcome.next (runAlu_of_no_result _ 2 a b s (aluShr_of_exact _ _ _ h)), ?_⟩
    rw [if_pos h]
    exact shrOut_toNat _ _
  case neg =>
    refine ⟨_, congrArg Host.Outcome.next (runAlu_of_no_result _ 2 a b s (aluShr_of_wide _ _ _ h)), ?_⟩
    rw [if_neg h]

/-- Settles O24: the three compute a word for A and nothing for O. -/
theorem bitwiseWriteResult : Obligations.BitwiseWriteResult :=
  ⟨basicOpcode_of_decodeBasic (by decide) (fun _ _ => rfl),
    basicOpcode_of_decodeBasic (by decide) (fun _ _ => rfl),
    basicOpcode_of_decodeBasic (by decide) (fun _ _ => rfl),
    fun a b s => ⟨runAlu_completes aluAnd 1 a b s rfl, runAlu_completes aluBor 1 a b s rfl,
      runAlu_completes aluXor 1 a b s rfl⟩⟩

end Sys2Proof.Machine
end

section
/-! The family 42_conditional.md: the four conditions as propositions, the course shared by the comparisons, and
each comparison from the two. -/

namespace Sys2Proof.Machine

/-! ### The conditions (R171 to R174) -/

theorem condEqual_iff (a b : Word) : condEqual a b = true ↔ a = b := beq_iff_eq

theorem condNotEqual_iff (a b : Word) : condNotEqual a b = true ↔ a ≠ b := bne_iff_ne

theorem condGreater_iff (a b : Word) : condGreater a b = true ↔ a.toNat > b.toNat := decide_eq_true_iff

theorem condBits_iff (a b : Word) : condBits a b = true ↔ a &&& b ≠ 0 := bne_iff_ne

/-! ### The shared course (R170) -/

/-- A comparison whose condition says `P` sets SKIP to `Q`, the negation of `P`, and charges 2 cycles where `P`
holds, else 3; nothing else differs from the resolved state. -/
theorem runIf_eq (cond : Word → Word → Bool) (a b : Operand) (s : State) {P Q : Prop} [Decidable P] [Decidable Q]
    (hcond : cond (resolvePair a b s).aVal (resolvePair a b s).bVal = true ↔ P) (hneg : Q ↔ ¬P) :
    runIf cond a b s = { (resolvePair a b s).st with
      skip := decide Q
      cyc := (resolvePair a b s).st.cyc + (if P then 2 else 3) } := by
  by_cases hP : P
  case pos =>
    rw [runIf, hcond.mpr hP, if_pos hP, decide_eq_false (fun hQ => hneg.mp hQ hP)]
    rfl
  case neg =>
    rw [runIf, Bool.eq_false_iff.mpr (mt hcond.mp hP), if_neg hP, decide_eq_true (hneg.mpr hP)]
    rfl

/-! ### The instructions -/

/-- Settles O29: the four share one course and differ in the condition alone. -/
theorem comparisonsSetSkip : Obligations.ComparisonsSetSkip := by
  refine ⟨basicOpcode_of_decodeBasic (by decide) (fun _ _ => rfl),
    basicOpcode_of_decodeBasic (by decide) (fun _ _ => rfl),
    basicOpcode_of_decodeBasic (by decide) (fun _ _ => rfl),
    basicOpcode_of_decodeBasic (by decide) (fun _ _ => rfl), fun a b s => ⟨?ife, ?ifn, ?ifg, ?ifb⟩⟩
  case ife =>
    exact congrArg Host.Outcome.next (runIf_eq condEqual a b s (condEqual_iff _ _) Iff.rfl)
  case ifn =>
    exact congrArg Host.Outcome.next (runIf_eq condNotEqual a b s (condNotEqual_iff _ _) Decidable.not_not.symm)
  case ifg =>
    exact congrArg Host.Outcome.next (runIf_eq condGreater a b s (condGreater_iff _ _) Nat.not_lt.symm)
  case ifb =>
    exact congrArg Host.Outcome.next (runIf_eq condBits a b s (condBits_iff _ _) Decidable.not_not.symm)

end Sys2Proof.Machine
end

section
/-! The family 43_extended.md: what JSR and an undefined extended opcode decode from, the push of JSR, and the
executed and the skipped course of an undefined extended opcode. -/

namespace Sys2Proof

/-! ### Extended opcodes (R73, R189) -/

theorem decode_jsr (sx : BitVec 6) (w n1 n2 : Word) (h0 : opField w = 0) (h1 : aField w = 0x01) :
    decode sx w n1 n2 = .instr (.jsr (Operand.ofCode (bField w) n1)) := by
  rw [decode_of_opField_eq_zero sx w n1 n2 h0]
  exact if_pos h1

theorem decode_of_undefined_xop (sx : BitVec 6) (w n1 n2 : Word) (h0 : opField w = 0) (h1 : aField w ≠ 0x01)
    (hsx : aField w ≠ sx) :
    decode sx w n1 n2 = .undefinedExt (aField w) (Operand.ofCode (bField w) n1) := by
  rw [decode_of_opField_eq_zero sx w n1 n2 h0]
  exact (if_neg h1).trans (if_neg hsx)

end Sys2Proof

namespace Sys2Proof.Machine

/-! ### The push (R186) -/

theorem State.pushWord_readMem_top (s : State) (v : Word) : (s.pushWord v).readMem (s.sp - 1) = v :=
  Memory.readWord_writeWord_same s.mem (s.sp - 1) v

/-- A push writes the two cells of the word below SP and no other. -/
theorem State.pushWord_cellsKeptOutside (s : State) (v : Word) :
    CellsKeptOutside (.memory (s.sp - 1)) s (s.pushWord v) := by
  intro n hn
  obtain ⟨hlow, hhigh⟩ := hn (s.sp - 1) rfl
  rw [State.pushWord_mem, Memory.readByte_writeWord, if_neg hhigh, if_neg hlow]

/-- Settles O31: resolution moves only SP, PC and CYC, and the jump and the charge after the push touch neither SP
nor memory. -/
theorem jsrPushesReturnAddress : Obligations.JsrPushesReturnAddress := by
  refine ⟨decode_jsr, fun b s => ⟨_, rfl, rfl, rfl, State.pushWord_readMem_top _ _, rfl, resolve_regs b s,
    resolve_o b s, ?cells, resolve_skip b s, resolve_status b s, resolve_session b s, resolve_hostCalls b s⟩⟩
  case cells =>
    intro n hn
    rw [← resolve_mem b s]
    exact State.pushWord_cellsKeptOutside _ _ n hn

/-! ### Undefined extended opcodes (R189, R203) -/

theorem step_of_undefinedExt (s : State) (xop : BitVec 6) (b : Operand) (hrun : s.status = .run)
    (hskip : s.skip = false) (hd : fetchDecode s = .undefinedExt xop b) :
    step s = .next (undefinedExtended xop b (s.readMem s.pc) s.pc (afterFetch s)) := by
  simp only [step, stepWith, hrun, hskip, hd, executed, Bool.false_eq_true, if_false]

theorem undefinedExtended_of_fault (xop : BitVec 6) (b : Operand) (w a : Word) (s : State)
    (h : s.session.undefExtPolicy = .fault) :
    undefinedExtended xop b w a s = { (resolve b s).2 with status := .faulted (.illegalExtOpcode xop w a) } :=
  (undefinedExtended_eq xop b w a s).trans (if_pos h)

theorem undefinedExtended_of_nop (xop : BitVec 6) (b : Operand) (w a : Word) (s : State)
    (h : s.session.undefExtPolicy = .nop) :
    undefinedExtended xop b w a s = { (resolve b s).2 with cyc := (resolve b s).2.cyc + 1 } :=
  (undefinedExtended_eq xop b w a s).trans (if_neg (by rw [h]; decide))

/-- A skipped step, whatever it passes, clears SKIP and leaves the core running (R116). -/
theorem skipped_step_keeps_run (s : State) (hrun : s.status = .run) (hskip : s.skip = true) :
    ∃ t, step s = .next t ∧ t.status = .run ∧ t.skip = false := by
  refine ⟨_, step_of_skip s hrun hskip, ?_, ?_⟩ <;> rw [skipped_eq]
  exact hrun

/-- Settles O14: the words at PC decode to an undefined extended instruction; its executed course depends on the
policy alone, and a skipped step reaches no fault. -/
theorem undefinedExtendedOpcode : Obligations.UndefinedExtendedOpcode := by
  intro s hrun h0 h1 hsx
  have hd := (fetchDecode_eq s).trans (decode_of_undefined_xop _ _ _ _ h0 h1 hsx)
  refine ⟨_, rfl, fun hskip hpol => ?fault, fun hskip hpol => ?nop, skipped_step_keeps_run s hrun⟩
  case fault =>
    exact (step_of_undefinedExt s _ _ hrun hskip hd).trans
      (congrArg Host.Outcome.next (undefinedExtended_of_fault _ _ _ _ (afterFetch s) hpol))
  case nop =>
    exact (step_of_undefinedExt s _ _ hrun hskip hd).trans
      (congrArg Host.Outcome.next (undefinedExtended_of_nop _ _ _ _ (afterFetch s) hpol))

end Sys2Proof.Machine
end

section
/-! The family 60_exceptions.md: what DIV and MOD compute for a latched divisor of 0, and that both complete. -/

namespace Sys2Proof.Machine

/-! ### A divisor of 0 (R145, R146) -/

theorem aluDiv_of_zero (a : Word) {b : Word} (h : b = 0) : aluDiv a b = ⟨some 0, some 0⟩ := by
  rw [aluDiv, divFraction, if_pos h, if_pos h]

theorem aluMod_of_zero (a : Word) {b : Word} (h : b = 0) : aluMod a b = ⟨none, some 0⟩ := by
  rw [aluMod, if_pos h]

/-- Settles O21: DIV computes the same word for O as for A, so O holds it even where A is O (R140). -/
theorem divisionByZeroCompletes : Obligations.DivisionByZeroCompletes := by
  refine fun a b s hb => ⟨?div, runAlu_completes aluMod 3 a b s (aluMod_of_zero _ hb)⟩
  case div =>
    obtain ⟨t, ht, hres, ho, hrest⟩ := runAlu_completes aluDiv 3 a b s (aluDiv_of_zero _ hb)
    refine ⟨t, ht, hres, ?_, hrest⟩
    by_cases hl : (resolvePair a b s).la = .overflow
    case pos =>
      rw [hl] at hres
      exact hres trivial
    case neg => exact ho hl

end Sys2Proof.Machine
end

section
/-! The encoding as a pair of inverse maps, what the decoder's tables say code by code, and what the assembler emits
(30_encoding.md). -/

namespace Sys2Proof

/-! ### Operands and their trailing words (R74, R76, R88) -/

/-- A well-formed operand is what its code selects when its trailing word, if it has one, comes next. -/
theorem Operand.ofCode_code_head (q : Operand) (hw : q.wellFormed = true) (rest : List Word) :
    Operand.ofCode q.code ((q.trailing ++ rest).getD 0 0) = q :=
  Operand.ofCode_code q _ hw (by cases q <;> simp [Operand.trailing])

/-- The words after operand A's trailing word are where operand B looks for its own (R77). -/
theorem Operand.second_trailing (q : Operand) (hw : q.wellFormed = true) (rest : List Word) :
    (if hasTrailingWord q.code then (q.trailing ++ rest).getD 1 0 else (q.trailing ++ rest).getD 0 0) =
      rest.getD 0 0 := by
  rw [Operand.hasTrailingWord_code q hw]
  cases q <;> rfl

/-! ### Decoding what was encoded (R81, R88) -/

theorem decode_encodeBasic (sx : BitVec 6) (op : BitVec 4) (a b : Operand) (after : List Word) (hop : op ≠ 0)
    (ha : a.wellFormed = true) (hb : b.wellFormed = true) :
    decode sx ((encodeBasic op a b ++ after).getD 0 0) ((encodeBasic op a b ++ after).getD 1 0)
      ((encodeBasic op a b ++ after).getD 2 0) = .instr (decodeBasic op a b) := by
  have hwords : encodeBasic op a b ++ after =
      instrWord op a.code b.code :: (a.trailing ++ (b.trailing ++ after)) := by simp [encodeBasic]
  rw [hwords]
  simp only [List.getD_cons_zero, List.getD_cons_succ]
  rw [decode_of_opField_ne_zero _ _ _ _ (by rwa [opField_instrWord])]
  simp only [opField_instrWord, aField_instrWord, bField_instrWord]
  rw [Operand.second_trailing a ha, Operand.ofCode_code_head a ha, Operand.ofCode_code_head b hb]

theorem decode_encodeExtended (sx xop : BitVec 6) (b : Operand) (after : List Word) (hb : b.wellFormed = true) :
    decode sx ((encodeExtended xop b ++ after).getD 0 0) ((encodeExtended xop b ++ after).getD 1 0)
      ((encodeExtended xop b ++ after).getD 2 0) = decodeExtended sx xop b := by
  simp only [encodeExtended, List.cons_append, List.getD_cons_zero, List.getD_cons_succ]
  rw [decode_of_opField_eq_zero _ _ _ _ (opField_instrWord _ _ _), aField_instrWord, bField_instrWord,
    Operand.ofCode_code_head b hb]

theorem decodeExtended_jsr (sx : BitVec 6) (b : Operand) :
    decodeExtended sx Config.jsrExtOpcode b = .instr (.jsr b) := if_pos rfl

theorem decodeExtended_sys (sx : BitVec 6) (b : Operand) (h : sx ≠ Config.jsrExtOpcode) :
    decodeExtended sx sx b = .instr (.sys b) := (if_neg h).trans (if_pos rfl)

/-- Settles O1: by cases on the instruction, with one lemma per format. -/
theorem decodeInvertsEncode : Obligations.DecodeInvertsEncode := by
  intro sx i after hsx hw
  cases i with
  | jsr b =>
    have hb : b.wellFormed = true := by simpa [Instr.wellFormed, Instr.operands] using hw
    exact (decode_encodeExtended sx _ b after hb).trans (decodeExtended_jsr sx b)
  | sys b =>
    have hb : b.wellFormed = true := by simpa [Instr.wellFormed, Instr.operands] using hw
    exact (decode_encodeExtended sx _ b after hb).trans (decodeExtended_sys sx b hsx)
  | _ a b =>
    obtain ⟨ha, hb⟩ : a.wellFormed = true ∧ b.wellFormed = true := by
      simpa [Instr.wellFormed, Instr.operands] using hw
    exact decode_encodeBasic sx _ a b after (by decide) ha hb

/-! ### Encoding what was decoded -/

/-- The table of the basic opcodes, read in both directions (R72). -/
theorem encode_decodeBasic (sx : BitVec 6) (op : BitVec 4) (a b : Operand) (h : op ≠ 0) :
    encode sx (decodeBasic op a b) = encodeBasic op a b := by
  obtain ⟨⟨n, hn⟩⟩ := op
  match n, hn with
  | 0, _ => exact absurd rfl h
  | 1, _ | 2, _ | 3, _ | 4, _ | 5, _ | 6, _ | 7, _ | 8, _ | 9, _ | 10, _ | 11, _ | 12, _ | 13, _ | 14, _
  | 15, _ => rfl
  | k + 16, hk => exact absurd hk (by omega)

/-- The words after the instruction word, cut to the length the first word gives (R76, R77). -/
theorem trailing_of_basic_fields (w n1 n2 : Word) (h : opField w ≠ 0) :
    (Operand.ofCode (aField w) n1).trailing ++
        (Operand.ofCode (bField w) (if hasTrailingWord (aField w) then n2 else n1)).trailing =
      [n1, n2].take (wordLength w - 1) := by
  rw [wordLength, if_pos (bne_iff_ne.mpr h), Operand.trailing_ofCode, Operand.trailing_ofCode]
  cases hasTrailingWord (aField w) <;> cases hasTrailingWord (bField w) <;> rfl

theorem trailing_of_extended_fields (w n1 n2 : Word) (h : opField w = 0) :
    (Operand.ofCode (bField w) n1).trailing = [n1, n2].take (wordLength w - 1) := by
  rw [wordLength, if_neg (by simp [h]), Operand.trailing_ofCode]
  cases hasTrailingWord (bField w) <;> rfl

/-- The first word and the trailing words together are the words of the instruction. -/
theorem take_wordLength (w n1 n2 : Word) :
    [w, n1, n2].take (wordLength w) = w :: [n1, n2].take (wordLength w - 1) := by
  obtain ⟨k, hk⟩ : ∃ k, wordLength w = k + 1 := ⟨wordLength w - 1, by have := Machine.wordLength_pos w; omega⟩
  rw [hk]
  rfl

theorem encodeBasic_of_fields (w n1 n2 : Word) (h : opField w ≠ 0) :
    encodeBasic (opField w) (Operand.ofCode (aField w) n1)
      (Operand.ofCode (bField w) (if hasTrailingWord (aField w) then n2 else n1)) =
      [w, n1, n2].take (wordLength w) := by
  rw [encodeBasic, Operand.code_ofCode, Operand.code_ofCode, instrWord_fields,
    trailing_of_basic_fields w n1 n2 h, take_wordLength]

theorem encodeExtended_of_fields (w n1 n2 : Word) (h : opField w = 0) :
    encodeExtended (aField w) (Operand.ofCode (bField w) n1) = [w, n1, n2].take (wordLength w) := by
  rw [encodeExtended, Operand.code_ofCode, ← h, instrWord_fields, trailing_of_extended_fields w n1 n2 h,
    take_wordLength]

/-- An extended opcode decodes to an instruction only if it is the one that instruction is encoded with (R73). -/
theorem decodeExtended_instr (sx xop : BitVec 6) (b : Operand) (i : Instr) (h : decodeExtended sx xop b = .instr i) :
    i.operands = [b] ∧ encode sx i = encodeExtended xop b := by
  unfold decodeExtended at h
  split at h
  · next hx => injection h with h; subst h hx; exact ⟨rfl, rfl⟩
  · split at h
    · next hx => injection h with h; subst h hx; exact ⟨rfl, rfl⟩
    · cases h

/-- Settles O2: by cases on the format, from the fields of the first word. -/
theorem encodeInvertsDecode : Obligations.EncodeInvertsDecode := by
  intro sx w n1 n2 i _ h
  by_cases h0 : opField w = 0
  case pos =>
    rw [decode_of_opField_eq_zero _ _ _ _ h0] at h
    obtain ⟨hops, henc⟩ := decodeExtended_instr _ _ _ _ h
    refine ⟨?_, henc.trans (encodeExtended_of_fields w n1 n2 h0)⟩
    rw [Instr.wellFormed, hops]
    simp [Operand.wellFormed_ofCode]
  case neg =>
    rw [decode_of_opField_ne_zero _ _ _ _ h0] at h
    injection h with h
    subst h
    refine ⟨?_, (encode_decodeBasic _ _ _ _ h0).trans (encodeBasic_of_fields w n1 n2 h0)⟩
    rw [Instr.wellFormed, decodeBasic_operands]
    simp [Operand.wellFormed_ofCode]

/-! ### The trailing-word predicate and the operand-code map -/

theorem hasTrailingWord_iff (c : BitVec 6) :
    hasTrailingWord c = true ↔ (0x10 ≤ c.toNat ∧ c.toNat ≤ 0x17) ∨ c.toNat = 0x1E ∨ c.toNat = 0x1F := by
  simp [hasTrailingWord, ← BitVec.toNat_inj, or_assoc]

theorem wordLength_le (w : Word) : wordLength w ≤ 3 ∧ (opField w = 0 → wordLength w ≤ 2) := by
  have ha := Bool.toNat_le (hasTrailingWord (aField w))
  have hb := Bool.toNat_le (hasTrailingWord (bField w))
  unfold wordLength
  refine ⟨by split <;> omega, fun h0 => ?_⟩
  rw [if_neg (by simp [h0])]
  omega

/-- Settles O4: the length is that of the decoded operands, which the first word gives. -/
theorem lengthFromFirstWord : Obligations.LengthFromFirstWord := by
  refine ⟨hasTrailingWord_iff, fun sx w n1 n2 => ?_⟩
  obtain ⟨h3, h2⟩ := wordLength_le w
  rw [← Machine.wordLength_eq_trailingCount sx w n1 n2]
  refine ⟨?_, fun _ => h3, h2⟩
  simp only [wordLength, bne_iff_ne, Bool.toNat, Bool.cond_eq_ite]

/-- The low three bits of a code are the register's index (R74). -/
theorem Reg.index_ofIndex (n : BitVec 3) : (Reg.ofIndex n).index = n.toNat := by
  revert n
  decide

theorem lowBits_toNat (c : BitVec 6) : (c.extractLsb' 0 3).toNat = c.toNat % 8 := by
  simp [BitVec.extractLsb'_toNat]

/-- Settles O5: each range of codes is one branch of `Operand.ofCode`. -/
theorem operandCodeMap : Obligations.OperandCodeMap := by
  intro c nw
  have hc : c.toNat < 64 := c.isLt
  let r := Reg.ofIndex (c.extractLsb' 0 3)
  have hidx : r.index = c.toNat % 8 := (Reg.index_ofIndex _).trans (lowBits_toNat c)
  refine ⟨fun h => ⟨r, by omega, if_pos h⟩, fun h => ⟨r, by omega, ?_⟩, fun h => ⟨r, by omega, ?_⟩, fun h => ?_,
    fun h => ?_, fun h => ?_, fun h => ?_, fun h => ?_, fun h => ?_, fun h => ?_, fun h => ?_,
    fun h => ⟨trunc16 (c.toNat - 0x20), ?value, ?literal⟩⟩
  case value =>
    rw [Machine.trunc16_toNat]
    omega
  case literal =>
    unfold Operand.ofCode
    repeat rw [if_neg (by omega)]
  all_goals
    unfold Operand.ofCode
    repeat rw [if_neg (by omega)]
    rw [if_pos (by omega)]

/-- Settles O6: each word is decoded by evaluation. -/
theorem specExampleWordsDecode : Obligations.SpecExampleWordsDecode := by
  refine ⟨?_, ?_, ?_, ?_, ?_, ?_, ?_⟩ <;> decide

end Sys2Proof

namespace Sys2Proof.Machine

/-! ### Bare tokens (R87, steps 5 to 7) -/

theorem classify_bare (syn : AsmSyntax) (t : Token) (hs : specialOfToken t = none) (hb : unbracket t = none) :
    classify syn t = classifyBare syn t := by
  simp only [classify, hs, hb]

theorem classifyBare_of_number (syn : AsmSyntax) (t : Token) (n : Nat) (h : syn.numLiteral t = some n) :
    classifyBare syn t =
      if n ≤ Config.litEmbedMax then .ok (.plain (.lit (trunc16 n)))
      else if n < 65536 then .ok (.nextLit (.num n))
      else .error .literalRange := by
  simp only [classifyBare, h]

theorem classifyBare_of_register (syn : AsmSyntax) (t : Token) (r : Reg) (h : syn.numLiteral t = none)
    (hr : regOfToken t = some r) : classifyBare syn t = .ok (.plain (.reg r)) := by
  simp only [classifyBare, h, hr]

theorem classifyBare_of_label (syn : AsmSyntax) (t : Token) (h : syn.numLiteral t = none)
    (hr : regOfToken t = none) : classifyBare syn t = .ok (.nextLit (valueOfToken syn t)) := by
  simp only [classifyBare, h, hr]

theorem valueOfToken_of_no_number (syn : AsmSyntax) (t : Token) (h : syn.numLiteral t = none) :
    ∃ isRelative name, valueOfToken syn t = .label isRelative name := by
  simp only [valueOfToken, h]
  cases syn.relative t with
  | some name => exact ⟨true, name, rfl⟩
  | none => exact ⟨false, t, rfl⟩

/-- Settles O58: the three kinds of a bare token, a number by its size. -/
theorem asmBareTokens : Obligations.AsmBareTokens := by
  intro syn t hs hb
  rw [classify_bare syn t hs hb]
  refine ⟨fun n hn => ?number, fun hn r hr => classifyBare_of_register syn t r hn hr, fun hn hr => ?label⟩
  case number =>
    have hmax : Config.litEmbedMax = 31 := rfl
    rw [classifyBare_of_number syn t n hn]
    refine ⟨fun h => if_pos h, fun h32 h => ?_, fun h => ?_⟩
    · rw [if_neg (by omega), if_pos (by omega)]
    · rw [if_neg (by omega), if_neg (by omega)]
  case label =>
    obtain ⟨isRelative, name, hv⟩ := valueOfToken_of_no_number syn t hn
    exact ⟨isRelative, name, by rw [classifyBare_of_label syn t hn hr, hv]⟩

/-! ### Assembled lines (R87, R88) -/

/-- An operand whose form is settled by its token is well formed: a token's number is embedded only up to 31. -/
def AsmOperand.plainWellFormed : AsmOperand → Prop
  | .plain q => q.wellFormed = true
  | .regNext _ _ => True
  | .nextInd _ => True
  | .nextLit _ => True

theorem specialOfToken_wellFormed (t : Token) (q : Operand) (h : specialOfToken t = some q) :
    q.wellFormed = true := by
  revert h
  fun_cases specialOfToken t <;> intro h <;> cases h <;> rfl

theorem classifySum_plainWellFormed (syn : AsmSyntax) (t : Token) (q : AsmOperand)
    (h : classifySum syn t = some q) : q.plainWellFormed := by
  unfold classifySum at h
  split at h
  · cases h
  · split at h
    · cases h; trivial
    · split at h <;> cases h
      trivial

theorem classifyIndirect_plainWellFormed (syn : AsmSyntax) (t : Token) :
    (classifyIndirect syn t).plainWellFormed := by
  unfold classifyIndirect
  split
  · rfl
  · trivial

theorem trunc16_lit_wellFormed (n : Nat) (h : n ≤ Config.litEmbedMax) :
    (Operand.lit (trunc16 n)).wellFormed = true := by
  have hmod : n % 65536 ≤ n := Nat.mod_le _ _
  simp only [Operand.wellFormed, decide_eq_true_eq, trunc16_toNat]
  omega

theorem classifyBare_plainWellFormed (syn : AsmSyntax) (t : Token) (q : AsmOperand)
    (h : classifyBare syn t = .ok q) : q.plainWellFormed := by
  cases hn : syn.numLiteral t with
  | some n =>
    rw [classifyBare_of_number syn t n hn] at h
    split at h
    · next hle => cases h; exact trunc16_lit_wellFormed n hle
    · split at h <;> cases h
      trivial
  | none =>
    cases hr : regOfToken t with
    | some r => rw [classifyBare_of_register syn t r hn hr] at h; cases h; rfl
    | none => rw [classifyBare_of_label syn t hn hr] at h; cases h; trivial

theorem classify_plainWellFormed (syn : AsmSyntax) (t : Token) (q : AsmOperand) (h : classify syn t = .ok q) :
    q.plainWellFormed := by
  unfold classify at h
  split at h
  · next op hop =>
    cases h
    exact specialOfToken_wellFormed t op hop
  · split at h
    · next inside _ =>
      split at h
      · next op hop =>
        cases h
        exact classifySum_plainWellFormed syn inside q hop
      · cases h
        exact classifyIndirect_plainWellFormed syn inside
    · exact classifyBare_plainWellFormed syn t q h

/-- A patched trailing word makes a form that every word fits. -/
theorem patchValue_map_wellFormed {labels : Token → Option Word} {site : Word} {v : AsmValue} {q : Operand}
    {f : Word → Operand} (hf : ∀ w, (f w).wellFormed = true) (h : (patchValue labels site v).map f = .ok q) :
    q.wellFormed = true := by
  cases hv : patchValue labels site v with
  | error e => rw [hv] at h; cases h
  | ok w => rw [hv] at h; cases h; exact hf w

theorem patchOperand_wellFormed (labels : Token → Option Word) (site : Word) (p : AsmOperand) (q : Operand)
    (hp : p.plainWellFormed) (h : patchOperand labels site p = .ok q) : q.wellFormed = true := by
  cases p with
  | plain op => cases h; exact hp
  | regNext r v => exact patchValue_map_wellFormed (fun _ => rfl) h
  | nextInd v => exact patchValue_map_wellFormed (fun _ => rfl) h
  | nextLit v => exact patchValue_map_wellFormed (fun _ => rfl) h

theorem operandsOfTokens_wellFormed (syn : AsmSyntax) (labels : Token → Option Word) (site : Word)
    (ts : List Token) (qs : List Operand) (h : operandsOfTokens syn labels site ts = .ok qs) :
    qs.all Operand.wellFormed = true := by
  induction ts generalizing qs with
  | nil => cases h; rfl
  | cons t ts ih =>
    unfold operandsOfTokens at h
    split at h
    · cases h
    · next p hp =>
      split at h
      · cases h
      · next q hq =>
        have hwf := patchOperand_wellFormed labels site p q (classify_plainWellFormed syn t p hp) hq
        cases hrest : operandsOfTokens syn labels site ts with
        | error e => rw [hrest] at h; cases h
        | ok rest =>
          rw [hrest] at h
          cases h
          rw [List.all_cons, hwf, ih rest hrest, Bool.and_true]

/-- A mnemonic puts its operands into an instruction as they stand (R84). -/
theorem instrOfTokens_operands (mnemonic : Token) (qs : List Operand) (i : Instr)
    (h : instrOfTokens mnemonic qs = .ok i) : i.operands = qs := by
  unfold instrOfTokens at h
  extract_lets basic extended at h
  have hbasic : ∀ f : Operand → Operand → Instr, (∀ a b, (f a b).operands = [a, b]) → basic f = .ok i →
      i.operands = qs := by
    intro f hf hok
    simp only [basic] at hok
    split at hok <;> cases hok
    exact hf _ _
  have hextended : ∀ f : Operand → Instr, (∀ b, (f b).operands = [b]) → extended f = .ok i → i.operands = qs := by
    intro f hf hok
    simp only [extended] at hok
    split at hok <;> cases hok
    exact hf _
  split at h
  case h_16 | h_17 => exact hextended _ (fun _ => rfl) h
  case h_18 => cases h
  all_goals exact hbasic _ (fun _ _ => rfl) h

/-- Settles O60: the operands of a line are well formed, so decoding inverts the encoding that was emitted. -/
theorem assembledLinesAreEncodings : Obligations.AssembledLinesAreEncodings := by
  intro syn labels sx site mnemonic ops ws hsx h
  unfold assembleInstr at h
  split at h
  · cases h
  · next qs hqs =>
    cases hi : instrOfTokens mnemonic qs with
    | error e => rw [hi] at h; cases h
    | ok i =>
      rw [hi] at h
      cases h
      have hwf : i.wellFormed = true := by
        rw [Instr.wellFormed, instrOfTokens_operands mnemonic qs i hi]
        exact operandsOfTokens_wellFormed syn labels site ops qs hqs
      refine ⟨i, rfl, hwf, ?_⟩
      simpa using decodeInvertsEncode sx i [] hsx hwf

end Sys2Proof.Machine
end

section
/-! What an executed instruction can have done, by family of instructions, and the frames that follow from it
(41_arith_logic.md, 42_conditional.md, 43_extended.md). -/

namespace Sys2Proof.Machine

/-! ### Operand resolution: SP, and which form gives which location (R103 to R112) -/

/-- Only a PUSH or a POP among the operands moves SP (R107, R109). -/
theorem resolveAll_sp_ne {qs : List Operand} {s : State} (h : (resolveAll qs s).sp ≠ s.sp) :
    ∃ q ∈ qs, q = .push ∨ q = .pop := by
  induction qs generalizing s with
  | nil => exact absurd rfl h
  | cons q qs ih =>
    by_cases hq : q = .push ∨ q = .pop
    case pos => exact ⟨q, List.mem_cons_self, hq⟩
    case neg =>
      have hsp : (resolve q s).2.sp = s.sp := by
        rw [resolve_sp]
        cases q <;> simp_all [spAfter]
      obtain ⟨p, hp, hpp⟩ := ih (s := (resolve q s).2) (by rwa [hsp])
      exact ⟨p, List.mem_cons_of_mem q hp, hpp⟩

theorem resolvePair_sp {a b : Operand} (s : State) (ha : a ≠ .push) (ha' : a ≠ .pop) (hb : b ≠ .push)
    (hb' : b ≠ .pop) : (resolvePair a b s).st.sp = s.sp := by
  by_cases h : (resolvePair a b s).st.sp = s.sp
  case pos => exact h
  case neg =>
    obtain ⟨q, hq, hqq⟩ := resolveAll_sp_ne (qs := [a, b]) h
    simp only [List.mem_cons, List.not_mem_nil, or_false] at hq
    obtain rfl | rfl := hq <;> obtain rfl | rfl := hqq <;> contradiction

theorem resolve_register {a : Operand} {s : State} {q : Reg} (h : (resolve a s).1 = .register q) : a = .reg q := by
  cases a <;> simp_all [resolve]

theorem resolve_stackPointer {a : Operand} {s : State} (h : (resolve a s).1 = .stackPointer) : a = .sp := by
  cases a <;> simp_all [resolve]

theorem resolve_overflow {a : Operand} {s : State} (h : (resolve a s).1 = .overflow) : a = .o := by
  cases a <;> simp_all [resolve]

/-! ### The shared course: what a computed word may change -/

/-- A course that computes nothing for O leaves it, unless it is the destination. -/
theorem runAlu_o_of_none (f : Word → Word → AluOut) (c : Nat) (a b : Operand) (s : State)
    (hf : ∀ x y, (f x y).o = none) (hl : (resolve a s).1 ≠ .overflow) : (runAlu f c a b s).o = s.o := by
  rw [runAlu_o f c a b s hl, hf]
  exact resolvePair_o a b s

/-- A course that computes nothing for A only resolves, writes O and charges. -/
theorem runAlu_of_none (f : Word → Word → AluOut) (c : Nat) (a b : Operand) (s : State)
    (hf : ∀ x y, (f x y).a = none) : ∃ o, runAlu f c a b s = ((resolveAll [a, b] s).setO o).charge c := by
  rw [runAlu, State.commit, hf]
  cases (f (resolvePair a b s).aVal (resolvePair a b s).bVal).o with
  | none => exact ⟨(resolveAll [a, b] s).o, rfl⟩
  | some o => exact ⟨o, rfl⟩

/-- SHR and the instructions that write A share one course. Those not among the six of R25 compute nothing for O,
and SHR computes nothing for A. -/
theorem exec_of_computing {mk : Operand → Operand → Instr} (h : mk ∈ Instr.shr :: operandWriters) (a b : Operand)
    (s : State) : ∃ f c, exec (mk a b) s = .next (runAlu f c a b s) ∧
      (mk ∈ overflowWriters ∨ ∀ x y, (f x y).o = none) ∧ (mk ∈ operandWriters ∨ ∀ x y, (f x y).a = none) := by
  simp only [operandWriters, List.mem_cons, List.not_mem_nil, or_false] at h
  rcases h with rfl | rfl | rfl | rfl | rfl | rfl | rfl | rfl | rfl | rfl | rfl <;>
    refine ⟨_, _, rfl, ?_, ?_⟩ <;>
    first | exact .inr (fun _ _ => rfl) | exact .inl (by simp [overflowWriters, operandWriters])

/-- The comparisons share one course (R170). -/
theorem exec_of_comparison {mk : Operand → Operand → Instr} (h : mk ∈ comparisons) (a b : Operand) (s : State) :
    ∃ p, exec (mk a b) s = .next (runIf p a b s) := by
  simp only [comparisons, List.mem_cons, List.not_mem_nil, or_false] at h
  rcases h with rfl | rfl | rfl | rfl <;> exact ⟨_, rfl⟩

/-! ### Frames of the computing instructions and of the comparisons -/

/-- Settles O28: the frame of the shared course, with what resolution moves. -/
theorem computingFrame : Obligations.ComputingFrame := by
  intro mk hmk a b s t h
  obtain ⟨f, c, hexec, ho, -⟩ := exec_of_computing hmk a b s
  obtain rfl : runAlu f c a b s = t := Host.Outcome.next.inj (hexec.symm.trans h)
  obtain ⟨hregs, hsp, -, hcells, hskip, hstatus, hsession, hcalls⟩ := runAlu_keptOutside f c a b s
  refine ⟨fun q hq => ?regs, fun hsp' hpop hpush hpop' hpush' => ?sp, fun ha hnot => ?o, fun n hn => ?cells,
    by simp, by simp, by simp, by simp⟩
  case regs => rw [hregs q (fun hl => hq (resolve_register hl)), resolvePair_regs]
  case sp => rw [hsp (fun hl => hsp' (resolve_stackPointer hl)), resolvePair_sp s hpush hpop hpush' hpop']
  case o =>
    rcases ho with hmem | hnone
    · exact absurd rfl (hnot mk hmem)
    · exact runAlu_o_of_none f c a b s hnone (fun hl => ha (resolve_overflow hl))
  case cells => rw [hcells n hn, resolvePair_mem]

/-- Settles O30: a comparison only resolves, sets SKIP and charges. -/
theorem comparisonFrame : Obligations.ComparisonFrame := by
  intro mk hmk a b s t h
  obtain ⟨p, hexec⟩ := exec_of_comparison hmk a b s
  obtain rfl : runIf p a b s = t := Host.Outcome.next.inj (hexec.symm.trans h)
  exact ⟨fun q => by rw [runIf_regs], fun hpop hpush hpop' hpush' => resolvePair_sp s hpush hpop hpush' hpop',
    runIf_o p a b s, fun n => by rw [runIf_mem], runIf_status p a b s, runIf_session p a b s,
    runIf_hostCalls p a b s⟩

/-! ### Results in O, and the laws of the arithmetic (R140, R152) -/

/-- The latched value of A is O itself when operand A is O: resolving B leaves O alone. -/
theorem resolvePair_overflow_aVal (b : Operand) (s : State) : (resolvePair .o b s).aVal = s.o :=
  resolvePair_o .o b s

/-- Settles O26: the destination is O, so each instruction's result stands there. -/
theorem resultWinsWhenAIsOverflow : Obligations.ResultWinsWhenAIsOverflow := by
  intro b s r
  have ha : r.aVal = s.o := resolvePair_overflow_aVal b s
  refine ⟨?add, ?sub, ?mul, ?div, fun hshift => ?shl⟩
  case add =>
    obtain ⟨t, ht, hres, -⟩ := addWritesSumAndCarry.2 .o b s
    exact ⟨t, ht, ha ▸ hres trivial⟩
  case sub =>
    obtain ⟨t, ht, hres, -⟩ := subWritesDifferenceAndBorrow.2 .o b s
    have hsub : (t.o.toNat : Int) = ((s.o.toNat : Int) - r.bVal.toNat) % 65536 := ha ▸ hres trivial
    have hb : r.bVal.toNat < 65536 := r.bVal.isLt
    exact ⟨t, ht, by omega⟩
  case mul =>
    obtain ⟨t, ht, hres, -⟩ := mulWritesBothHalves.2 .o b s
    exact ⟨t, ht, ha ▸ hres trivial⟩
  case div =>
    obtain ⟨t, ht, hres, -⟩ := divWritesQuotientAndFraction.2 .o b s
    exact ⟨t, ht, ha ▸ hres trivial⟩
  case shl =>
    obtain ⟨t, ht, hres, -⟩ := shlWritesShiftAndOverflow.2 .o b s
    rw [if_pos (.inl hshift)] at hres
    exact ⟨t, ht, ha ▸ hres.1 trivial⟩

/-- Settles O27: the words that MUL, DIV and MOD leave, put together by the division algorithm. -/
theorem arithmeticLaws : Obligations.ArithmeticLaws := by
  intro a b s r hw hl
  refine ⟨?mul, fun hb => ?divmod⟩
  case mul =>
    obtain ⟨t, ht, hlow, hhigh, -⟩ := mulWritesBothHalves.2 a b s
    refine ⟨t, ht, ?_⟩
    rw [hlow hw, hhigh hl]
    exact Nat.div_add_mod' _ _
  case divmod =>
    obtain ⟨t, ht, hquot, -⟩ := divWritesQuotientAndFraction.2 a b s
    obtain ⟨u, hu, hrem, -⟩ := modWritesRemainder.2 a b s
    have hpos : 0 < r.bVal.toNat := Nat.pos_of_ne_zero (fun h => hb (BitVec.eq_of_toNat_eq h))
    refine ⟨t, u, ht, hu, ?_⟩
    rw [hquot hw, hrem hw, if_neg hb, if_neg hb]
    exact ⟨(Nat.div_add_mod _ _).symm, Nat.mod_lt _ hpos⟩

/-! ### JSR and its return (R186) -/

/-- `SET PC, POP` in any state: PC is the word on top of the stack, which the pop passes. -/
theorem exec_set_pc_pop (s : State) :
    ∃ u, exec (.set .pc .pop) s = .next u ∧ u.pc = s.readMem s.sp ∧ u.sp = s.sp + 1 ∧ u.regs = s.regs ∧ u.o = s.o :=
  ⟨_, rfl, rfl, rfl, rfl, rfl⟩

/-- Settles O32: the word that JSR pushed is popped into PC, and SP is back. -/
theorem jsrThenSetPcPopReturns : Obligations.JsrThenSetPcPopReturns := by
  intro b s
  obtain ⟨t, ht, -, hsp, htop, -, hregs, ho, -⟩ := jsrPushesReturnAddress.2 b s
  obtain ⟨u, hu, hupc, husp, huregs, huo⟩ := exec_set_pc_pop { t with pc := t.pc + 1 }
  have hread : u.pc = t.readMem t.sp := hupc
  have hback : u.sp = t.sp + 1 := husp
  refine ⟨t, u, ht, hu, ?_, ?_, huregs.trans hregs, huo.trans ho⟩
  · rw [hread, hsp, htop]
  · rw [hback, hsp, BitVec.sub_add_cancel]

/-! ### SYS (R187, R188) -/

theorem decode_sys (sx : BitVec 6) (w n1 n2 : Word) (h0 : opField w = 0) (hsx : sx ≠ 0x01) (ha : aField w = sx) :
    decode sx w n1 n2 = .instr (.sys (Operand.ofCode (bField w) n1)) := by
  rw [decode_of_opField_eq_zero sx w n1 n2 h0, ha]
  exact decodeExtended_sys sx _ hsx

theorem syscallEntry_eq_none {table : List SyscallEntry} {id : Word} (h : ∀ e ∈ table, e.id ≠ id) :
    syscallEntry table id = none := by
  simpa [syscallEntry] using h

theorem syscallEntry_first {front back : List SyscallEntry} {e : SyscallEntry} {id : Word}
    (hfront : ∀ d ∈ front, d.id ≠ id) (he : e.id = id) : syscallEntry (front ++ e :: back) id = some e := by
  have hnone : front.find? (fun d => d.id == id) = none := syscallEntry_eq_none hfront
  rw [syscallEntry, List.find?_append, hnone, Option.none_or, List.find?_cons_of_pos (by simpa using he)]

theorem exec_sys_zero {b : Operand} {s : State} (h : (resolve b s).2.readLoc (resolve b s).1 = 0) :
    exec (.sys b) s = .next ((resolve b s).2.halt.charge 1) := if_pos h

theorem exec_sys_unknown {b : Operand} {s : State} (h : (resolve b s).2.readLoc (resolve b s).1 ≠ 0)
    (hnone : ∀ e ∈ s.session.syscallTable, e.id ≠ (resolve b s).2.readLoc (resolve b s).1) :
    exec (.sys b) s = .next ((resolve b s).2.charge 1) := by
  simp only [exec, execSys, if_neg h, syscall, resolve_session, syscallEntry_eq_none hnone]

/-- Settles O33: the three cases of the latched value, the last by the entry that `find?` meets first. -/
theorem sysHaltsOrCallsHandler : Obligations.SysHaltsOrCallsHandler := by
  refine ⟨decode_sys, fun b s => ⟨exec_sys_zero, exec_sys_unknown, fun hid front back e htable hfront he => ?known⟩⟩
  case known =>
    have htable' : (resolve b s).2.session.syscallTable = front ++ e :: back := by rw [resolve_session, htable]
    simp only [exec, execSys, if_neg hid, syscall, htable', syscallEntry_first hfront he]
    cases Config.syscallReply (resolve b s).2.hostCalls e.handler e.data (resolve b s).2 <;> rfl

/-- SYS that answers next has halted, has had no effect, or has called a handler. -/
theorem exec_sys_cases {b : Operand} {s t : State} (h : exec (.sys b) s = .next t) :
    ((resolve b s).2.readLoc (resolve b s).1 = 0 ∧ t = (resolve b s).2.halt.charge 1) ∨
    ((resolve b s).2.readLoc (resolve b s).1 ≠ 0 ∧ t = (resolve b s).2.charge 1) ∨
    (CallsHandler b s ∧
      ∃ u, syscall ((resolve b s).2.readLoc (resolve b s).1) (resolve b s).2 = .next u ∧ t = u.charge 1) := by
  by_cases h0 : (resolve b s).2.readLoc (resolve b s).1 = 0
  case pos => exact .inl ⟨h0, Host.Outcome.next.inj (h.symm.trans (exec_sys_zero h0))⟩
  case neg =>
    by_cases hnone : ∀ e ∈ s.session.syscallTable, e.id ≠ (resolve b s).2.readLoc (resolve b s).1
    case pos => exact .inr (.inl ⟨h0, Host.Outcome.next.inj (h.symm.trans (exec_sys_unknown h0 hnone))⟩)
    case neg =>
      have hcalls : CallsHandler b s := ⟨h0, by simpa using hnone⟩
      simp only [exec, execSys, if_neg h0] at h
      split at h
      · next u hu => exact .inr (.inr ⟨hcalls, u, hu, (Host.Outcome.next.inj h).symm⟩)
      · cases h
      · cases h

/-- Settles O34: a handler's writes reach neither SKIP, status, CYC nor the session. -/
theorem sysFrame : Obligations.SysFrame := by
  intro b s t h
  have hcyc := resolve_cyc b s
  rcases exec_sys_cases h with ⟨h0, rfl⟩ | ⟨h0, rfl⟩ | ⟨⟨h0, e, he, hid⟩, u, hu, rfl⟩
  case inl =>
    simp [h0, hcyc]
  case inr.inl =>
    simp [hcyc]
  case inr.inr =>
    obtain ⟨hskip, hstatus, hucyc, hsession, -⟩ := syscall_frame _ _ _ hu
    refine ⟨by simp [hskip], by simp [hsession], by simp [hucyc, hcyc], fun _ => by simp [hstatus],
      fun hnone => absurd hid (hnone e he)⟩

end Sys2Proof.Machine
end

section
/-! Memory as it is represented, as it is fetched from, and as an image fills it (20_memory.md,
70_reset_and_hazards.md). -/

namespace Sys2Proof.Machine

/-! ### The representation is canonical -/

theorem Memory.wfFrom_cons {lo k : Nat} {v : Byte} {rest : Memory} :
    Memory.wfFrom lo ((k, v) :: rest) = true ↔
      lo ≤ k ∧ k < 2 * Config.memWords ∧ v ≠ 0 ∧ Memory.wfFrom (k + 1) rest = true := by
  simp [Memory.wfFrom, and_assoc]

@[simp] theorem Memory.readByte_cons_same (k : Nat) (v : Byte) (rest : Memory) :
    Memory.readByte ((k, v) :: rest) k = v := if_pos rfl

theorem Memory.readByte_cons_other {k n : Nat} (v : Byte) (rest : Memory) (h : k ≠ n) :
    Memory.readByte ((k, v) :: rest) n = Memory.readByte rest n := if_neg h

/-- The first cell of a canonical memory is listed first in any canonical memory that reads alike. -/
theorem Memory.first_cell_le {lo j k : Nat} {v w : Byte} {m n : Memory}
    (hm : Memory.wfFrom lo ((k, v) :: m) = true) (hn : Memory.wfFrom lo ((j, w) :: n) = true)
    (h : ∀ i < 2 * Config.memWords, Memory.readByte ((k, v) :: m) i = Memory.readByte ((j, w) :: n) i) : j ≤ k := by
  obtain ⟨-, hk, hv, -⟩ := Memory.wfFrom_cons.mp hm
  obtain ⟨-, hj, hw, hn'⟩ := Memory.wfFrom_cons.mp hn
  by_cases hlt : k < j
  case pos =>
    have hzero : Memory.readByte ((j, w) :: n) k = 0 :=
      Memory.readByte_below _ j k (Memory.wfFrom_cons.mpr ⟨Nat.le_refl j, hj, hw, hn'⟩) hlt
    rw [← h k hk, Memory.readByte_cons_same] at hzero
    exact absurd hzero hv
  case neg => exact Nat.le_of_not_lt hlt

/-- Canonical memories whose cells read alike are the same list. -/
theorem Memory.eq_of_readByte {m n : Memory} {lo : Nat} (hm : m.wfFrom lo = true) (hn : n.wfFrom lo = true)
    (h : ∀ i < 2 * Config.memWords, Memory.readByte m i = Memory.readByte n i) : m = n := by
  induction m generalizing lo n with
  | nil =>
    cases n with
    | nil => rfl
    | cons c n =>
      obtain ⟨-, hj, hw, -⟩ := Memory.wfFrom_cons.mp hn
      exact absurd ((h c.1 hj).trans (Memory.readByte_cons_same _ _ _)).symm hw
  | cons c m ih =>
    obtain ⟨k, v⟩ := c
    obtain ⟨-, hk, hv, hm'⟩ := Memory.wfFrom_cons.mp hm
    cases n with
    | nil => exact absurd ((Memory.readByte_cons_same k v m).symm.trans (h k hk)) hv
    | cons d n =>
      obtain ⟨j, w⟩ := d
      obtain rfl : j = k :=
        Nat.le_antisymm (Memory.first_cell_le hm hn h) (Memory.first_cell_le hn hm (fun i hi => (h i hi).symm))
      obtain rfl : v = w := by simpa using h j hk
      obtain ⟨-, -, -, hn'⟩ := Memory.wfFrom_cons.mp hn
      rw [ih hm' hn' fun i hi => ?_]
      by_cases hij : j = i
      case pos =>
        subst hij
        have hj : j < j + 1 := Nat.lt_succ_self j
        rw [Memory.readByte_below m _ j hm' hj, Memory.readByte_below n _ j hn' hj]
      case neg =>
        rw [← Memory.readByte_cons_other v m hij, ← Memory.readByte_cons_other v n hij]
        exact h i hi

/-- Each cell is a half of a word (20_memory.md R51). -/
theorem Memory.readByte_of_readWord {m n : Memory} (h : ∀ a : Word, m.readWord a = n.readWord a) (i : Nat)
    (hi : i < 2 * Config.memWords) : Memory.readByte m i = Memory.readByte n i := by
  have hmax : Config.memWords = 65536 := rfl
  have haddr : (BitVec.ofNat 16 (i / 2)).toNat = i / 2 := by
    rw [BitVec.toNat_ofNat]
    omega
  have hword := h (BitVec.ofNat 16 (i / 2))
  simp only [Memory.readWord, haddr] at hword
  by_cases hodd : i % 2 = 1
  case pos =>
    rw [show i = 2 * (i / 2) + 1 by omega]
    simpa using congrArg highByte hword
  case neg =>
    rw [show i = 2 * (i / 2) by omega]
    simpa using congrArg lowByte hword

/-- Settles O36: memories that agree on words agree on cells, and canonical ones are then equal. -/
theorem canonicalMemoriesAreEqual : Obligations.CanonicalMemoriesAreEqual := fun _ _ hm hn h =>
  Memory.eq_of_readByte hm hn (Memory.readByte_of_readWord h)

/-! ### A fetch after a write (20_memory.md R63) -/

theorem State.readMem_writeMem (s : State) (x w a : Word) :
    (s.writeMem x w).readMem a = if a = x then w else s.readMem a := Memory.readWord_writeWord s.mem x w a

/-- Settles O37: a fetch decodes the words that memory reads as after the write. -/
theorem fetchSeesEarlierWrite : Obligations.FetchSeesEarlierWrite := by
  intro s x w i hrun hskip seen hd
  refine step_of_instr (s.writeMem x w) i hrun hskip ?_
  rw [fetchDecode_eq]
  simp only [State.readMem_writeMem]
  exact hd

/-! ### Images (R222) -/

theorem Memory.ofWords_append_zero (ws : List Word) (k : Nat) :
    Memory.ofWords k (ws ++ [0]) = Memory.ofWords k ws := by
  induction ws generalizing k with
  | nil => rfl
  | cons w ws ih => simp only [List.cons_append, Memory.ofWords, ih]

theorem trimImage_append_singleton (ws : List Word) (w : Word) :
    trimImage (ws ++ [w]) = if w = 0 then trimImage ws else ws ++ [w] := by
  simp only [trimImage, List.reverse_append, List.reverse_cons, List.reverse_nil, List.nil_append, List.cons_append,
    List.dropWhile_cons, beq_iff_eq]
  split
  · rfl
  · simp

/-- Trailing zero words leave no cell. -/
theorem Memory.ofWords_trimImage (ws : List Word) : Memory.ofWords 0 (trimImage ws) = Memory.ofWords 0 ws := by
  induction hn : ws.length generalizing ws with
  | zero => rw [List.length_eq_zero_iff.mp hn]; rfl
  | succ n ih =>
    obtain ⟨front, w, rfl⟩ : ∃ front w, ws = front ++ [w] :=
      ⟨_, _, (List.dropLast_concat_getLast (List.ne_nil_of_length_eq_add_one hn)).symm⟩
    rw [trimImage_append_singleton]
    split
    · next hw =>
      rw [hw, Memory.ofWords_append_zero]
      exact ih front (by simpa using hn)
    · rfl

theorem load_of_words {order : ImageByteOrder} {bytes : List Byte} {ws : List Word} (s : State)
    (h : imageWords order bytes = some ws) :
    load order bytes s =
      if ws.length ≤ Config.memWords then .next { s with mem := Memory.ofWords 0 ws }
      else .refused .imageOverflow := by
  simp only [load, h]

/-- Settles O38: an even image gives its words, and they are placed from address 0 on. -/
theorem loadPlacesImageWords : Obligations.LoadPlacesImageWords := by
  refine ⟨Memory.ofWords_trimImage, fun order bytes s heven hlen => ?_⟩
  have hmax : Config.memWords = 65536 := rfl
  obtain ⟨ws, hws, hwslen, hget⟩ := imageWords_of_even order bytes heven
  obtain ⟨hwf, hread⟩ := ofWords_wf_and_read ws 0 (by omega)
  refine ⟨{ s with mem := Memory.ofWords 0 ws }, ?_, rfl, hwf, fun a => ?_⟩
  · rw [load_of_words s hws, if_pos (by omega)]
  · have hword : Memory.readWord (Memory.ofWords 0 ws) a = ws.getD a.toNat 0 := hread a.toNat
    rw [State.readMem_eq, hword, hget]
    cases order <;> rfl

/-- Settles O39: an odd image has no words, and an even one too long has too many. -/
theorem loadRefusesBadImages : Obligations.LoadRefusesBadImages := by
  refine fun order bytes s => ⟨fun hodd => ?_, fun heven hlen => ?_⟩
  · simp only [load, imageWords_of_odd order bytes hodd]
  · have hmax : Config.memWords = 65536 := rfl
    obtain ⟨ws, hws, hwslen, -⟩ := imageWords_of_even order bytes heven
    rw [load_of_words s hws, if_neg (by omega)]

end Sys2Proof.Machine
end

section
/-! What a step keeps and who writes each piece of state: the inversion of `exec` with the family of the instruction,
that of `step`, and the rules of the whole machine from the two (10_state.md). -/

namespace Sys2Proof.Machine

/-! ### `exec`, with the family of the instruction named -/

/-- What an executed instruction that answers `t` has done. -/
inductive ExecForm (i : Instr) (s t : State) : Prop
  | computes (mk : Operand → Operand → Instr) (a b : Operand) (hmk : mk ∈ Instr.shr :: operandWriters)
      (hi : i = mk a b) (ht : ∃ f c, t = runAlu f c a b s)
  | compares (mk : Operand → Operand → Instr) (a b : Operand) (hmk : mk ∈ comparisons) (hi : i = mk a b)
      (ht : ∃ p, t = runIf p a b s)
  | jumps (b : Operand) (hi : i = .jsr b)
      (ht : t = (((resolve b s).2.pushWord (resolve b s).2.pc).setPc
        ((resolve b s).2.readLoc (resolve b s).1)).charge 2)
  | halts (b : Operand) (hi : i = .sys b) (hid : (resolve b s).2.readLoc (resolve b s).1 = 0)
      (ht : t = (resolve b s).2.halt.charge 1)
  | ignores (b : Operand) (hi : i = .sys b) (ht : t = (resolve b s).2.charge 1)
  | calls (b : Operand) (hi : i = .sys b) (hcalls : CallsHandler b s)
      (ht : ∃ u, syscall ((resolve b s).2.readLoc (resolve b s).1) (resolve b s).2 = .next u ∧ t = u.charge 1)

theorem execForm_of_computing {mk : Operand → Operand → Instr} {a b : Operand} {s t : State}
    (h : exec (mk a b) s = .next t) (hmk : mk ∈ Instr.shr :: operandWriters) : ExecForm (mk a b) s t := by
  obtain ⟨f, c, hexec, -, -⟩ := exec_of_computing hmk a b s
  exact .computes mk a b hmk rfl ⟨f, c, Host.Outcome.next.inj (h.symm.trans hexec)⟩

theorem execForm_of_comparison {mk : Operand → Operand → Instr} {a b : Operand} {s t : State}
    (h : exec (mk a b) s = .next t) (hmk : mk ∈ comparisons) : ExecForm (mk a b) s t := by
  obtain ⟨p, hexec⟩ := exec_of_comparison hmk a b s
  exact .compares mk a b hmk rfl ⟨p, Host.Outcome.next.inj (h.symm.trans hexec)⟩

theorem execForm (i : Instr) (s t : State) (h : exec i s = .next t) : ExecForm i s t := by
  cases i with
  | jsr b => exact .jumps b rfl (Host.Outcome.next.inj h).symm
  | sys b =>
    rcases exec_sys_cases h with ⟨hid, ht⟩ | ⟨-, ht⟩ | ⟨hcalls, ht⟩
    · exact .halts b rfl hid ht
    · exact .ignores b rfl ht
    · exact .calls b rfl hcalls ht
  | ife a b | ifn a b | ifg a b | ifb a b => exact execForm_of_comparison h (by simp [comparisons])
  | _ a b => exact execForm_of_computing h (by simp [operandWriters])

/-! ### What an executed instruction keeps -/

theorem exec_session {i : Instr} {s t : State} (h : exec i s = .next t) : t.session = s.session := by
  cases execForm i s t h with
  | computes mk a b _ _ ht => obtain ⟨f, c, rfl⟩ := ht; exact runAlu_session f c a b s
  | compares mk a b _ _ ht => obtain ⟨p, rfl⟩ := ht; exact runIf_session p a b s
  | jumps b _ ht | halts b _ _ ht | ignores b _ ht => subst ht; exact resolve_session b s
  | calls b _ _ ht =>
    obtain ⟨u, hu, rfl⟩ := ht
    obtain ⟨-, -, -, hsession, -⟩ := syscall_frame _ _ _ hu
    exact hsession.trans (resolve_session b s)

theorem exec_mem_wf {i : Instr} {s t : State} (h : exec i s = .next t) (hw : s.mem.wf = true) :
    t.mem.wf = true := by
  have hres : ∀ b : Operand, (resolve b s).2.mem.wf = true := fun b => by rwa [resolve_mem]
  cases execForm i s t h with
  | computes mk a b _ _ ht => obtain ⟨f, c, rfl⟩ := ht; exact runAlu_wf f c a b s hw
  | compares mk a b _ _ ht => obtain ⟨p, rfl⟩ := ht; rwa [runIf_mem]
  | jumps b _ ht => subst ht; exact Memory.wf_writeWord _ _ _ (hres b)
  | halts b _ _ ht | ignores b _ ht => subst ht; exact hres b
  | calls b _ _ ht =>
    obtain ⟨u, hu, rfl⟩ := ht
    obtain ⟨-, -, -, -, hwf⟩ := syscall_frame _ _ _ hu
    exact hwf (hres b)

/-- Only `SYS` with value 0 writes the status (R187). -/
theorem exec_status {i : Instr} {s t : State} (h : exec i s = .next t) :
    t.status = s.status ∨
      (t.status = .halted ∧ ∃ b, i = .sys b ∧ (resolve b s).2.readLoc (resolve b s).1 = 0) := by
  cases execForm i s t h with
  | computes mk a b _ _ ht => obtain ⟨f, c, rfl⟩ := ht; exact .inl (runAlu_status f c a b s)
  | compares mk a b _ _ ht => obtain ⟨p, rfl⟩ := ht; exact .inl (runIf_status p a b s)
  | jumps b _ ht | ignores b _ ht => subst ht; exact .inl (resolve_status b s)
  | halts b hi hid ht => subst ht; exact .inr ⟨rfl, b, hi, hid⟩
  | calls b _ _ ht =>
    obtain ⟨u, hu, rfl⟩ := ht
    obtain ⟨-, hstatus, -, -, -⟩ := syscall_frame _ _ _ hu
    exact .inl (hstatus.trans (resolve_status b s))

/-- Only a comparison writes SKIP (R170). -/
theorem exec_skip {i : Instr} {s t : State} (h : exec i s = .next t) :
    t.skip = s.skip ∨ ∃ mk ∈ comparisons, ∃ a b, i = mk a b := by
  cases execForm i s t h with
  | computes mk a b _ _ ht => obtain ⟨f, c, rfl⟩ := ht; exact .inl (runAlu_skip f c a b s)
  | compares mk a b hmk hi _ => exact .inr ⟨mk, hmk, a, b, hi⟩
  | jumps b _ ht | halts b _ _ ht | ignores b _ ht => subst ht; exact .inl (resolve_skip b s)
  | calls b _ _ ht =>
    obtain ⟨u, hu, rfl⟩ := ht
    obtain ⟨hskip, -, -, -, -⟩ := syscall_frame _ _ _ hu
    exact .inl (hskip.trans (resolve_skip b s))

/-! ### The other courses of a step -/

@[simp] theorem afterFetch_regs (s : State) : (afterFetch s).regs = s.regs := rfl
@[simp] theorem afterFetch_sp (s : State) : (afterFetch s).sp = s.sp := rfl
@[simp] theorem afterFetch_o (s : State) : (afterFetch s).o = s.o := rfl
@[simp] theorem afterFetch_mem (s : State) : (afterFetch s).mem = s.mem := rfl
@[simp] theorem afterFetch_skip (s : State) : (afterFetch s).skip = s.skip := rfl
@[simp] theorem afterFetch_status (s : State) : (afterFetch s).status = s.status := rfl
@[simp] theorem afterFetch_cyc (s : State) : (afterFetch s).cyc = s.cyc := rfl
@[simp] theorem afterFetch_session (s : State) : (afterFetch s).session = s.session := rfl

@[simp] theorem undefinedExtended_session (xop : BitVec 6) (b : Operand) (w a : Word) (s : State) :
    (undefinedExtended xop b w a s).session = s.session := by
  rw [undefinedExtended_eq]
  split <;> simp

@[simp] theorem undefinedExtended_mem (xop : BitVec 6) (b : Operand) (w a : Word) (s : State) :
    (undefinedExtended xop b w a s).mem = s.mem := by
  rw [undefinedExtended_eq]
  split <;> simp

@[simp] theorem undefinedExtended_regs (xop : BitVec 6) (b : Operand) (w a : Word) (s : State) :
    (undefinedExtended xop b w a s).regs = s.regs := by
  rw [undefinedExtended_eq]
  split <;> simp

@[simp] theorem undefinedExtended_o (xop : BitVec 6) (b : Operand) (w a : Word) (s : State) :
    (undefinedExtended xop b w a s).o = s.o := by
  rw [undefinedExtended_eq]
  split <;> simp

@[simp] theorem undefinedExtended_skip (xop : BitVec 6) (b : Operand) (w a : Word) (s : State) :
    (undefinedExtended xop b w a s).skip = s.skip := by
  rw [undefinedExtended_eq]
  split <;> simp

theorem undefinedExtended_sp (xop : BitVec 6) (b : Operand) (w a : Word) (s : State) :
    (undefinedExtended xop b w a s).sp = (resolveAll [b] s).sp := by
  rw [undefinedExtended_eq]
  split <;> rfl

theorem undefinedExtended_status (xop : BitVec 6) (b : Operand) (w a : Word) (s : State) :
    (undefinedExtended xop b w a s).status =
      if s.session.undefExtPolicy = .fault then .faulted (.illegalExtOpcode xop w a) else s.status := by
  rw [undefinedExtended_eq]
  split <;> simp

theorem step_of_stopped (s : State) (h : s.status ≠ .run) : step s = .next s := by
  unfold step stepWith
  split
  · next hrun => exact absurd hrun h
  · rfl
  · rfl

/-- Settles O13: both stopped statuses answer at once. -/
theorem stoppedCoreStays : Obligations.StoppedCoreStays := step_of_stopped

/-! ### The session and the invariant (R27, R30) -/

/-- Settles O51: no course of a step writes the session. -/
theorem stepKeepsSession : Obligations.StepKeepsSession := by
  intro s t h
  rcases step_cases s t h with ⟨-, rfl⟩ | ⟨-, -, rfl⟩ | ⟨-, -, i, -, hexec⟩ | ⟨-, -, xop, b, -, rfl⟩
  case inl => rfl
  case inr.inl => rw [skipped_eq]; rfl
  case inr.inr.inl => exact (exec_session hexec).trans (afterFetch_session s)
  case inr.inr.inr => exact undefinedExtended_session _ _ _ _ _

theorem step_mem_wf {s t : State} (h : step s = .next t) (hw : s.mem.wf = true) : t.mem.wf = true := by
  rcases step_cases s t h with ⟨-, rfl⟩ | ⟨-, -, rfl⟩ | ⟨-, -, i, -, hexec⟩ | ⟨-, -, xop, b, -, rfl⟩
  case inl => exact hw
  case inr.inl => rw [skipped_eq]; exact hw
  case inr.inr.inl => exact exec_mem_wf hexec hw
  case inr.inr.inr => rw [undefinedExtended_mem]; exact hw

theorem State.inv_iff (s : State) : s.inv = true ↔ s.mem.wf = true ∧ s.session.wf = true ∧ s.statusOk = true := by
  simp [State.inv, and_assoc]

theorem State.statusOk_of_run {s : State} (h : s.status = .run) : s.statusOk = true := by
  simp only [State.statusOk, h]

theorem State.statusOk_of_halted {s : State} (h : s.status = .halted) : s.statusOk = true := by
  simp only [State.statusOk, h]

theorem State.statusOk_of_faulted {s : State} {c : FaultCause} (h : s.status = .faulted c) :
    s.statusOk = (c.describes s.session && s.session.undefExtPolicy == .fault) := by
  simp only [State.statusOk, h]

/-- An undefined extended instruction leaves RUN only under `fault`, with the record of its word (R189, R204). -/
theorem undefinedExtended_statusOk (s : State) (xop : BitVec 6) (b : Operand) (addr : Word) (hrun : s.status = .run)
    (hd : fetchDecode s = .undefinedExt xop b) :
    (undefinedExtended xop b (s.readMem s.pc) addr (afterFetch s)).statusOk = true := by
  obtain ⟨hop, hxop, -, hjsr, hsys⟩ := decode_undefinedExt _ _ _ _ _ _ hd
  have hst := undefinedExtended_status xop b (s.readMem s.pc) addr (afterFetch s)
  by_cases hpol : s.session.undefExtPolicy = .fault
  case pos =>
    rw [afterFetch_session, if_pos hpol] at hst
    rw [State.statusOk_of_faulted hst, FaultCause.describes, hop, hxop, undefinedExtended_session, afterFetch_session,
      hpol]
    simp [hjsr, hsys]
  case neg => exact State.statusOk_of_run (hst.trans ((if_neg hpol).trans hrun))

theorem step_statusOk {s t : State} (h : step s = .next t) (hok : s.statusOk = true) : t.statusOk = true := by
  rcases step_cases s t h with ⟨-, rfl⟩ | ⟨hrun, -, rfl⟩ | ⟨hrun, -, i, -, hexec⟩ | ⟨hrun, -, xop, b, hd, rfl⟩
  case inl => exact hok
  case inr.inl => exact State.statusOk_of_run (by rw [skipped_eq]; exact hrun)
  case inr.inr.inl =>
    rcases exec_status hexec with hst | ⟨hhalt, -⟩
    · exact State.statusOk_of_run (hst.trans hrun)
    · exact State.statusOk_of_halted hhalt
  case inr.inr.inr => exact undefinedExtended_statusOk s xop b s.pc hrun hd

/-- Settles O45: the three parts of the invariant, each kept by every course of a step. -/
theorem stepKeepsInvariant : Obligations.StepKeepsInvariant := by
  intro s t hinv h
  obtain ⟨hmem, hsession, hstatus⟩ := s.inv_iff.mp hinv
  exact t.inv_iff.mpr ⟨step_mem_wf h hmem, by rwa [stepKeepsSession s t h], step_statusOk h hstatus⟩

/-- Settles O46: reset has an empty memory, and a running core has no fault's record. -/
theorem resetMeetsInvariant : Obligations.ResetMeetsInvariant :=
  have hreset : ∀ c : Session, c.wf = true → (State.resetWith c).inv = true := fun c hc =>
    (State.inv_iff _).mpr ⟨rfl, hc, State.statusOk_of_run rfl⟩
  ⟨hreset Config.defaultSession (by decide), hreset⟩

/-! ### Status, SKIP and progress (R26, R27, R124) -/

theorem step_skip_of_skipped {s t : State} (hrun : s.status = .run) (hskip : s.skip = true) (h : step s = .next t) :
    t.skip = false := by
  obtain ⟨u, hu, -, hclear⟩ := skipped_step_keeps_run s hrun hskip
  rwa [← Host.Outcome.next.inj (hu.symm.trans h)]

/-- Settles O49: a skipped step clears SKIP, and of the executed ones only a comparison writes it. -/
theorem onlyComparisonsSetSkip : Obligations.OnlyComparisonsSetSkip := by
  intro s t hrun h hset
  rcases step_cases s t h with ⟨hstop, -⟩ | ⟨-, hskip, -⟩ | ⟨-, hskip, i, hd, hexec⟩ | ⟨-, hskip, xop, b, -, rfl⟩
  case inl => exact absurd hrun hstop
  case inr.inl => exact absurd (hset.symm.trans (step_skip_of_skipped hrun hskip h)) (by decide)
  case inr.inr.inl =>
    rcases exec_skip hexec with hkept | ⟨mk, hmk, a, b, rfl⟩
    · exact absurd (hset.symm.trans (hkept.trans hskip)) (by decide)
    · exact ⟨hskip, mk, hmk, a, b, hd⟩
  case inr.inr.inr =>
    rw [undefinedExtended_skip] at hset
    exact absurd (hset.symm.trans hskip) (by decide)

/-- Settles O50: the two writers of the status, each with its condition. -/
theorem statusLeavesRunOnlyBySysOrFault : Obligations.StatusLeavesRunOnlyBySysOrFault := by
  intro s t hrun h hleft
  rcases step_cases s t h with ⟨hstop, -⟩ | ⟨-, -, rfl⟩ | ⟨-, hskip, i, hd, hexec⟩ | ⟨-, hskip, xop, b, hd, rfl⟩
  case inl => exact absurd hrun hstop
  case inr.inl => exact absurd (by rw [skipped_eq]; exact hrun) hleft
  case inr.inr.inl =>
    rcases exec_status hexec with hst | ⟨hhalt, b, rfl, hid⟩
    · exact absurd (hst.trans hrun) hleft
    · exact ⟨hskip, .inl ⟨hhalt, b, hd, hid⟩⟩
  case inr.inr.inr =>
    have hst := undefinedExtended_status xop b (s.readMem s.pc) s.pc (afterFetch s)
    by_cases hpol : s.session.undefExtPolicy = .fault
    case pos => exact ⟨hskip, .inr ⟨hpol, xop, b, hd, hst.trans (if_pos hpol)⟩⟩
    case neg => exact absurd (hst.trans ((if_neg hpol).trans hrun)) hleft

theorem undefExtPolicy_eq_nop {p : UndefExtPolicy} (h : p ≠ .fault) : p = .nop := by
  cases p with
  | fault => exact absurd rfl h
  | nop => rfl

theorem handlerCost_bounds (i : Instr) (k : Bool) : 1 ≤ handlerCost i k ∧ handlerCost i k ≤ 3 := by
  have hk := k.toNat_le
  cases i <;> simp only [handlerCost] <;> omega

theorem step_cyc_le {s t : State} (h : step s = .next t) : s.cyc ≤ t.cyc := by
  rw [stepChargesTheCostTable s t h]
  exact Nat.le_add_right _ _

/-- An executed step charges its handler, or one cycle under `nop`, or faults (R124). -/
theorem step_progress {s t : State} (hrun : s.status = .run) (hskip : s.skip = false) (h : step s = .next t) :
    s.cyc < t.cyc ∨ ∃ c, t.status = .faulted c := by
  rcases step_cases s t h with ⟨hstop, -⟩ | ⟨-, hskip', -⟩ | ⟨-, -, i, -, hexec⟩ | ⟨-, -, xop, b, -, rfl⟩
  case inl => exact absurd hrun hstop
  case inr.inl => exact absurd (hskip.symm.trans hskip') (by decide)
  case inr.inr.inl =>
    have hcyc := exec_cyc i (afterFetch s) t hexec
    rw [afterFetch_cyc] at hcyc
    obtain ⟨hpos, -⟩ := handlerCost_bounds i t.skip
    exact .inl (by omega)
  case inr.inr.inr =>
    by_cases hpol : s.session.undefExtPolicy = .fault
    case pos => exact .inr ⟨_, (undefinedExtended_status _ _ _ _ _).trans (if_pos hpol)⟩
    case neg =>
      rw [undefinedExtended_of_nop xop b _ _ (afterFetch s) (undefExtPolicy_eq_nop hpol)]
      have hle : s.cyc ≤ (resolve b (afterFetch s)).2.cyc := by rw [resolve_cyc]; exact Nat.le_add_right _ _
      exact .inl (Nat.lt_succ_of_le hle)

theorem step_cyc_lt {s t : State} (hrun : s.status = .run) (hskip : s.skip = false) (h : step s = .next t)
    (hrun' : t.status = .run) : s.cyc < t.cyc := by
  rcases step_progress hrun hskip h with hlt | ⟨c, hc⟩
  · exact hlt
  · rw [hrun'] at hc; cases hc

/-- Settles O48: of two steps in RUN the first is executed, or it is skipped and clears SKIP for the second. -/
theorem twoStepsMakeProgress : Obligations.TwoStepsMakeProgress := by
  intro s t hrun h
  refine ⟨fun hskip => step_progress hrun hskip h, fun hskip => step_skip_of_skipped hrun hskip h,
    fun u hrunt hu hrunu => ?_⟩
  cases hskip : s.skip with
  | false => exact Nat.lt_of_lt_of_le (step_cyc_lt hrun hskip h hrunt) (step_cyc_le hu)
  | true =>
    exact Nat.lt_of_le_of_lt (step_cyc_le h) (step_cyc_lt hrunt (step_skip_of_skipped hrun hskip h) hu hrunu)

/-! ### The writers of R, SP, O and memory (R22, R23, R25, R39) -/

theorem operands_of_computing {mk : Operand → Operand → Instr} (h : mk ∈ Instr.shr :: operandWriters)
    (a b : Operand) : (mk a b).operands = [a, b] := by
  simp only [operandWriters, List.mem_cons, List.not_mem_nil, or_false] at h
  rcases h with rfl | rfl | rfl | rfl | rfl | rfl | rfl | rfl | rfl | rfl | rfl <;> rfl

theorem operands_of_comparison {mk : Operand → Operand → Instr} (h : mk ∈ comparisons) (a b : Operand) :
    (mk a b).operands = [a, b] := by
  simp only [comparisons, List.mem_cons, List.not_mem_nil, or_false] at h
  rcases h with rfl | rfl | rfl | rfl <;> rfl

section
variable {mk : Operand → Operand → Instr} {a b : Operand} {s t : State}

/-- A computing instruction has committed to A's location, or is SHR and has written O only. -/
theorem computing_cases (hmk : mk ∈ Instr.shr :: operandWriters) (h : exec (mk a b) s = .next t) :
    (mk ∈ operandWriters ∧ KeptOutside (resolve a s).1 (resolveAll [a, b] s) t) ∨
    ∃ o c, t = ((resolveAll [a, b] s).setO o).charge c := by
  obtain ⟨f, c, hexec, -, ha⟩ := exec_of_computing hmk a b s
  obtain rfl : t = runAlu f c a b s := Host.Outcome.next.inj (h.symm.trans hexec)
  rcases ha with hw | hnone
  · exact .inl ⟨hw, runAlu_keptOutside f c a b s⟩
  · obtain ⟨o, ho⟩ := runAlu_of_none f c a b s hnone
    exact .inr ⟨o, c, ho⟩

theorem computing_changes_reg (hmk : mk ∈ Instr.shr :: operandWriters) (h : exec (mk a b) s = .next t) {q : Reg}
    (hne : t.regs.get q ≠ s.regs.get q) : mk ∈ operandWriters ∧ a = .reg q := by
  rcases computing_cases hmk h with ⟨hw, hregs, -⟩ | ⟨o, c, rfl⟩
  · refine ⟨hw, Decidable.byContradiction fun ha => hne ?_⟩
    rw [hregs q (fun hl => ha (resolve_register hl)), resolveAll_regs]
  · exact absurd (by simp) hne

theorem computing_changes_mem (hmk : mk ∈ Instr.shr :: operandWriters) (h : exec (mk a b) s = .next t) {x : Word}
    (hne : t.readMem x ≠ s.readMem x) : mk ∈ operandWriters ∧ (resolve a s).1 = .memory x := by
  rcases computing_cases hmk h with ⟨hw, -, -, -, hcells, -⟩ | ⟨o, c, rfl⟩
  · refine ⟨hw, Decidable.byContradiction fun ha => hne ?_⟩
    have haway : ∀ addr : Word, (resolve a s).1 = .memory addr → x.toNat ≠ addr.toNat := fun addr hl hx =>
      ha (by rw [hl, BitVec.eq_of_toNat_eq hx])
    simp only [State.readMem_eq, Memory.readWord]
    rw [hcells _ (fun addr hl => ⟨by omega, by have := haway addr hl; omega⟩),
      hcells _ (fun addr hl => ⟨by have := haway addr hl; omega, by omega⟩), resolveAll_mem]
  · exact absurd (by simp) hne

theorem computing_changes_sp (hmk : mk ∈ Instr.shr :: operandWriters) (h : exec (mk a b) s = .next t)
    (hne : t.sp ≠ s.sp) : (mk ∈ operandWriters ∧ a = .sp) ∨ (resolveAll [a, b] s).sp ≠ s.sp := by
  rcases computing_cases hmk h with ⟨hw, -, hsp, -⟩ | ⟨o, c, rfl⟩
  · by_cases ha : (resolve a s).1 = .stackPointer
    · exact .inl ⟨hw, resolve_stackPointer ha⟩
    · exact .inr (hsp ha ▸ hne)
  · exact .inr hne

theorem computing_changes_o (hmk : mk ∈ Instr.shr :: operandWriters) (h : exec (mk a b) s = .next t)
    (hne : t.o ≠ s.o) : mk ∈ overflowWriters ∨ (mk ∈ operandWriters ∧ a = .o) := by
  obtain ⟨f, c, hexec, ho, ha⟩ := exec_of_computing hmk a b s
  obtain rfl : t = runAlu f c a b s := Host.Outcome.next.inj (h.symm.trans hexec)
  rcases ho with hmem | hnone
  · exact .inl hmem
  · rcases List.mem_cons.mp hmk with rfl | hw
    · exact .inl (by simp [overflowWriters])
    · exact .inr ⟨hw, resolve_overflow (Decidable.byContradiction fun hl =>
        hne (runAlu_o_of_none f c a b s hnone hl))⟩

end

/-- A PUSH or a POP stands among the operands, and moves SP for good: in a skipped step only under `apply`. -/
def MovesSp (s : State) : Prop :=
  s.status = .run ∧ ∃ q ∈ (fetchDecode s).operands, (q = .push ∨ q = .pop) ∧
    (s.skip = true → s.session.skipStackEffect = .apply)

theorem movesSp_of_executed {s : State} (hrun : s.status = .run) (hskip : s.skip = false)
    (h : (resolveAll (fetchDecode s).operands (afterFetch s)).sp ≠ s.sp) : MovesSp s := by
  obtain ⟨q, hq, hqq⟩ := resolveAll_sp_ne (s := afterFetch s) h
  exact ⟨hrun, q, hq, hqq, fun hk => absurd (hskip.symm.trans hk) (by decide)⟩

theorem movesSp_of_skipped {s : State} (hrun : s.status = .run)
    (h : (skipped (fetchDecode s) (afterFetch s)).sp ≠ s.sp) : MovesSp s := by
  rw [skipped_eq] at h
  cases hpol : s.session.skipStackEffect with
  | discard => exact absurd (if_pos hpol) h
  | apply =>
    have hsp : (resolveAll (fetchDecode s).operands (afterFetch s)).sp ≠ (afterFetch s).sp := by
      simpa [hpol] using h
    obtain ⟨q, hq, hqq⟩ := resolveAll_sp_ne hsp
    exact ⟨hrun, q, hq, hqq, fun _ => hpol⟩

/-- What a step has done to R, SP, O and memory: nothing but what resolution does to SP, or the work of a computing
instruction, a JSR or a handler. -/
inductive StepEffect (s t : State) : Prop
  | quiet (hregs : t.regs = s.regs) (hmem : t.mem = s.mem) (ho : t.o = s.o) (hsp : t.sp ≠ s.sp → MovesSp s)
  | computes (hrun : s.status = .run) (hskip : s.skip = false) (mk : Operand → Operand → Instr) (a b : Operand)
      (hmk : mk ∈ Instr.shr :: operandWriters) (hd : fetchDecode s = .instr (mk a b))
      (hexec : exec (mk a b) (afterFetch s) = .next t)
  | jumps (hrun : s.status = .run) (hskip : s.skip = false) (b : Operand) (hd : fetchDecode s = .instr (.jsr b))
      (hexec : exec (.jsr b) (afterFetch s) = .next t)
  | calls (hrun : s.status = .run) (hskip : s.skip = false) (b : Operand) (hd : fetchDecode s = .instr (.sys b))
      (hcalls : CallsHandler b (afterFetch s))

theorem stepEffect_of_exec {s t : State} {i : Instr} (hrun : s.status = .run) (hskip : s.skip = false)
    (hd : fetchDecode s = .instr i) (h : exec i (afterFetch s) = .next t) : StepEffect s t := by
  have hsp : (resolveAll i.operands (afterFetch s)).sp ≠ s.sp → MovesSp s := fun hne =>
    movesSp_of_executed hrun hskip (by rwa [hd])
  cases execForm i _ t h with
  | computes mk a b hmk hi _ => subst hi; exact .computes hrun hskip mk a b hmk hd h
  | compares mk a b hmk hi ht =>
    obtain ⟨p, rfl⟩ := ht
    rw [hi, operands_of_comparison hmk] at hsp
    exact .quiet (runIf_regs _ _ _ _) (runIf_mem _ _ _ _) (runIf_o _ _ _ _) hsp
  | jumps b hi _ => subst hi; exact .jumps hrun hskip b hd h
  | halts b hi _ ht | ignores b hi ht =>
    subst hi ht
    exact .quiet (resolve_regs b _) (resolve_mem b _) (resolve_o b _) hsp
  | calls b hi hcalls _ => subst hi; exact .calls hrun hskip b hd hcalls

theorem stepEffect {s t : State} (h : step s = .next t) : StepEffect s t := by
  rcases step_cases s t h with ⟨-, rfl⟩ | ⟨hrun, -, rfl⟩ | ⟨hrun, hskip, i, hd, hexec⟩ |
    ⟨hrun, hskip, xop, b, hd, rfl⟩
  case inl => exact .quiet rfl rfl rfl (fun hne => absurd rfl hne)
  case inr.inl =>
    refine .quiet ?_ ?_ ?_ (movesSp_of_skipped hrun) <;> rw [skipped_eq] <;> rfl
  case inr.inr.inl => exact stepEffect_of_exec hrun hskip hd hexec
  case inr.inr.inr =>
    refine .quiet (undefinedExtended_regs _ _ _ _ _) (undefinedExtended_mem _ _ _ _ _) (undefinedExtended_o _ _ _ _ _)
      (fun hne => movesSp_of_executed hrun hskip ?_)
    rw [undefinedExtended_sp] at hne
    rwa [hd]

/-- Settles O52: of the effects of a step only those of a writer of A and of a handler reach a register. -/
theorem registerWriters : Obligations.RegisterWriters := by
  intro s t q h hne
  cases stepEffect h with
  | quiet hregs _ _ _ => exact absurd (by rw [hregs]) hne
  | computes hrun hskip mk a b hmk hd hexec =>
    obtain ⟨hw, rfl⟩ := computing_changes_reg hmk hexec hne
    exact ⟨hrun, hskip, .inl ⟨mk, hw, b, hd⟩⟩
  | jumps hrun hskip b hd hexec =>
    obtain rfl := Host.Outcome.next.inj hexec
    exact absurd (by simp) hne
  | calls hrun hskip b hd hcalls => exact ⟨hrun, hskip, .inr ⟨b, hd, hcalls⟩⟩

/-- Settles O55: of the effects of a step only those of a writer of A, of JSR and of a handler reach memory. -/
theorem memoryWriters : Obligations.MemoryWriters := by
  intro s t x h hne
  cases stepEffect h with
  | quiet _ hmem _ _ => exact absurd (by rw [State.readMem_eq, hmem, State.readMem_eq]) hne
  | computes hrun hskip mk a b hmk hd hexec =>
    obtain ⟨hw, hl⟩ := computing_changes_mem hmk hexec hne
    exact ⟨hrun, hskip, .inl ⟨mk, hw, a, b, hd, hl⟩⟩
  | jumps hrun hskip b hd hexec =>
    refine ⟨hrun, hskip, .inr (.inl ⟨b, hd, Decidable.byContradiction fun hx => hne ?_⟩)⟩
    obtain rfl := Host.Outcome.next.inj hexec
    simp only [State.readMem_eq, State.charge_mem, State.setPc_mem, State.pushWord_mem, resolve_mem]
    exact Memory.readWord_writeWord_other _ _ _ _ hx
  | calls hrun hskip b hd hcalls => exact ⟨hrun, hskip, .inr (.inr ⟨b, hd, hcalls⟩)⟩

/-- Settles O53: resolution moves SP in any course of a step; beside it only a writer of A, JSR and a handler do. -/
theorem stackPointerWriters : Obligations.StackPointerWriters := by
  intro s t h hne
  cases stepEffect h with
  | quiet _ _ _ hsp =>
    obtain ⟨hrun, hmoves⟩ := hsp hne
    exact ⟨hrun, .inl hmoves⟩
  | computes hrun hskip mk a b hmk hd hexec =>
    rcases computing_changes_sp hmk hexec hne with ⟨hw, rfl⟩ | hmoved
    · exact ⟨hrun, .inr ⟨hskip, .inl ⟨mk, hw, b, hd⟩⟩⟩
    · obtain ⟨-, hmoves⟩ := movesSp_of_executed hrun hskip (by
        rw [hd, Decoded.operands, operands_of_computing hmk]
        exact hmoved)
      exact ⟨hrun, .inl hmoves⟩
  | jumps hrun hskip b hd _ => exact ⟨hrun, .inr ⟨hskip, .inr (.inl ⟨b, hd⟩)⟩⟩
  | calls hrun hskip b hd hcalls => exact ⟨hrun, .inr ⟨hskip, .inr (.inr ⟨b, hd, hcalls⟩)⟩⟩

/-- Settles O54: of the effects of a step only those of a computing instruction and of a handler reach O. -/
theorem overflowWritersAreR25 : Obligations.OverflowWritersAreR25 := by
  intro s t h hne
  cases stepEffect h with
  | quiet _ _ ho _ => exact absurd ho hne
  | computes hrun hskip mk a b hmk hd hexec =>
    rcases computing_changes_o hmk hexec hne with hmem | ⟨hw, rfl⟩
    · exact ⟨hrun, hskip, .inl ⟨mk, hmem, a, b, hd⟩⟩
    · exact ⟨hrun, hskip, .inr (.inl ⟨mk, hw, b, hd⟩)⟩
  | jumps hrun hskip b hd hexec =>
    obtain rfl := Host.Outcome.next.inj hexec
    exact absurd (by simp) hne
  | calls hrun hskip b hd hcalls => exact ⟨hrun, hskip, .inr (.inr ⟨b, hd, hcalls⟩)⟩

end Sys2Proof.Machine
end

section
/-! What a step does not see: the cycle counter, and the memory words that are not among its accesses
(10_state.md R28, 20_memory.md R55). -/

namespace Sys2Proof.Machine

/-! ### The cycle counter (R28) -/

theorem State.charge_comm (s : State) (j k : Nat) : (s.charge j).charge k = (s.charge k).charge j := by
  simp only [State.charge, Nat.add_right_comm]

@[simp] theorem State.readLoc_charge (s : State) (k : Nat) (l : Loc) : (s.charge k).readLoc l = s.readLoc l := by
  cases l <;> rfl

theorem State.writeLoc_charge (s : State) (k : Nat) (l : Loc) (v : Word) :
    (s.charge k).writeLoc l v = (s.writeLoc l v).charge k := by
  cases l <;> rfl

theorem State.commit_charge (s : State) (k : Nat) (l : Loc) (out : AluOut) :
    (s.charge k).commit l out = (s.commit l out).charge k := by
  obtain ⟨_ | o, _ | v⟩ := out
  · rfl
  · exact State.writeLoc_charge s k l v
  · rfl
  · exact State.writeLoc_charge (s.setO o) k l v

theorem resolve_charge (q : Operand) (s : State) (k : Nat) :
    resolve q (s.charge k) = ((resolve q s).1, (resolve q s).2.charge k) := by
  have htake : (s.charge k).takeTrailing = s.takeTrailing.charge k := State.charge_comm (s.setPc (s.pc + 1)) k 1
  cases q <;> simp [resolve, htake] <;> rfl

theorem resolvePair_charge (a b : Operand) (s : State) (k : Nat) :
    resolvePair a b (s.charge k) = { resolvePair a b s with st := (resolvePair a b s).st.charge k } := by
  simp only [resolvePair, resolve_charge]

theorem resolveAll_charge (qs : List Operand) (s : State) (k : Nat) :
    resolveAll qs (s.charge k) = (resolveAll qs s).charge k := by
  induction qs generalizing s with
  | nil => rfl
  | cons q qs ih => simp only [resolveAll, resolve_charge, ih]

theorem runAlu_charge (f : Word → Word → AluOut) (c : Nat) (a b : Operand) (s : State) (k : Nat) :
    runAlu f c a b (s.charge k) = (runAlu f c a b s).charge k := by
  simp only [runAlu, resolvePair_charge, Resolved.aVal, Resolved.bVal, State.readLoc_charge, State.commit_charge]
  exact State.charge_comm _ k c

theorem runIf_charge (p : Word → Word → Bool) (a b : Operand) (s : State) (k : Nat) :
    runIf p a b (s.charge k) = (runIf p a b s).charge k := by
  simp only [runIf, resolvePair_charge, Resolved.aVal, Resolved.bVal, State.readLoc_charge]
  exact State.charge_comm (((resolvePair a b s).st).setSkip _) k _

/-- With an empty table SYS halts or does nothing. -/
theorem exec_sys_of_empty (b : Operand) (s : State) (hempty : s.session.syscallTable = []) :
    exec (.sys b) s = .next
      ((if (resolve b s).2.readLoc (resolve b s).1 = 0 then (resolve b s).2.halt else (resolve b s).2).charge 1) := by
  by_cases h0 : (resolve b s).2.readLoc (resolve b s).1 = 0
  case pos => rw [exec_sys_zero h0, if_pos h0]
  case neg => rw [exec_sys_unknown h0 (by simp [hempty]), if_neg h0]

theorem exec_charge {i : Instr} {s t : State} (k : Nat) (hempty : s.session.syscallTable = [])
    (h : exec i s = .next t) : exec i (s.charge k) = .next (t.charge k) := by
  cases i with
  | jsr b =>
    obtain rfl := Host.Outcome.next.inj h
    simp only [exec, execJsr, resolve_charge, State.readLoc_charge]
    exact congrArg Host.Outcome.next (State.charge_comm (((resolve b s).2.pushWord _).setPc _) k 2)
  | sys b =>
    rw [exec_sys_of_empty b s hempty] at h
    obtain rfl := Host.Outcome.next.inj h
    rw [exec_sys_of_empty b (s.charge k) hempty, resolve_charge, State.readLoc_charge]
    by_cases h0 : (resolve b s).2.readLoc (resolve b s).1 = 0
    case pos => rw [if_pos h0, if_pos h0, State.charge_comm _ 1 k]; rfl
    case neg => rw [if_neg h0, if_neg h0, State.charge_comm _ 1 k]
  | ife a b | ifn a b | ifg a b | ifb a b =>
    obtain rfl := Host.Outcome.next.inj h
    exact congrArg Host.Outcome.next (runIf_charge _ a b s k)
  | _ a b =>
    obtain rfl := Host.Outcome.next.inj h
    exact congrArg Host.Outcome.next (runAlu_charge _ _ a b s k)

theorem skipped_charge (d : Decoded) (s : State) (k : Nat) : skipped d (s.charge k) = (skipped d s).charge k := by
  simp only [skipped, resolveAll_charge, State.charge_session]
  cases s.session.skipStackEffect <;> rfl

theorem undefinedExtended_charge (xop : BitVec 6) (b : Operand) (w a : Word) (s : State) (k : Nat) :
    undefinedExtended xop b w a (s.charge k) = (undefinedExtended xop b w a s).charge k := by
  simp only [undefinedExtended, resolve_charge, State.charge_session]
  cases s.session.undefExtPolicy with
  | fault => rfl
  | nop => exact State.charge_comm _ k 1

/-- Settles O56: a larger CYC passes through every course of a step. -/
theorem cycleCounterIsUnobservable : Obligations.CycleCounterIsUnobservable := by
  intro s t k hempty h
  rcases step_cases s t h with ⟨hstop, rfl⟩ | ⟨hrun, hskip, rfl⟩ | ⟨hrun, hskip, i, hd, hexec⟩ |
    ⟨hrun, hskip, xop, b, hd, rfl⟩
  case inl => exact step_of_stopped _ hstop
  case inr.inl =>
    exact (step_of_skip (s.charge k) hrun hskip).trans
      (congrArg Host.Outcome.next (skipped_charge (fetchDecode s) (afterFetch s) k))
  case inr.inr.inl =>
    exact (step_of_instr (s.charge k) i hrun hskip hd).trans (exec_charge (s := afterFetch s) k hempty hexec)
  case inr.inr.inr =>
    exact (step_of_undefinedExt (s.charge k) xop b hrun hskip hd).trans
      (congrArg Host.Outcome.next (undefinedExtended_charge xop b _ _ (afterFetch s) k))

/-! ### The accesses of a step (R55) -/

theorem Loc.write_not_mem_reads (l : Loc) (x : Word) : Access.write x ∉ l.reads := by
  cases l <;> simp [Loc.reads]

theorem Loc.write_mem_writes (l : Loc) (x : Word) : Access.write x ∈ l.writes ↔ l = .memory x := by
  cases l <;> simp [Loc.writes, eq_comm]

theorem write_not_mem_fetchAccesses (s : State) (x : Word) : Access.write x ∉ fetchAccesses s := by
  simp [fetchAccesses]

theorem Loc.reads_length_le (l : Loc) : l.reads.length ≤ 1 := by
  cases l <;> simp [Loc.reads]

theorem Loc.writes_length_le (l : Loc) : l.writes.length ≤ 1 := by
  cases l <;> simp [Loc.writes]

theorem basicAccesses_length_le (latchesA writesA : Bool) (a b : Operand) (s : State) :
    (basicAccesses latchesA writesA a b s).length ≤ 3 := by
  have ha := (resolvePair a b s).la.reads_length_le
  have hb := (resolvePair a b s).lb.reads_length_le
  have hw := (resolvePair a b s).la.writes_length_le
  cases latchesA <;> cases writesA <;> simp [basicAccesses] <;> omega

theorem execAccesses_length_le (i : Instr) (s : State) : (execAccesses i s).length ≤ 3 := by
  cases i with
  | jsr b =>
    have hb := (resolve b s).1.reads_length_le
    simp only [execAccesses, List.length_append, List.length_singleton]
    omega
  | sys b => exact Nat.le_trans (resolve b s).1.reads_length_le (by decide)
  | _ a b => exact basicAccesses_length_le _ _ a b s

theorem stepAccesses_of_skip {s : State} (hrun : s.status = .run) (hskip : s.skip = true) :
    stepAccesses s = fetchAccesses s := by
  simp only [stepAccesses, hrun, if_pos hskip, List.append_nil]

theorem stepAccesses_of_instr {s : State} {i : Instr} (hrun : s.status = .run) (hskip : s.skip = false)
    (hd : fetchDecode s = .instr i) : stepAccesses s = fetchAccesses s ++ execAccesses i (afterFetch s) := by
  simp only [stepAccesses, hrun, hskip, hd, Bool.false_eq_true, if_false]

theorem stepAccesses_of_undefinedExt {s : State} {xop : BitVec 6} {b : Operand} (hrun : s.status = .run)
    (hskip : s.skip = false) (hd : fetchDecode s = .undefinedExt xop b) : stepAccesses s = fetchAccesses s := by
  simp only [stepAccesses, hrun, hskip, hd, Bool.false_eq_true, if_false, List.append_nil]

theorem stepAccesses_of_stopped {s : State} (hstop : s.status ≠ .run) : stepAccesses s = [] := by
  unfold stepAccesses
  split
  · next hrun => exact absurd hrun hstop
  · rfl
  · rfl

/-- A step's accesses are one read per word of the instruction, then at most three more. -/
theorem stepAccesses_of_run {s : State} (hrun : s.status = .run) :
    ∃ rest, stepAccesses s = fetchAccesses s ++ rest ∧ rest.length ≤ 3 ∧ (s.skip = true → rest = []) := by
  cases hskip : s.skip with
  | true => exact ⟨[], by simp [stepAccesses_of_skip hrun hskip], by simp, fun _ => rfl⟩
  | false =>
    cases hd : fetchDecode s with
    | instr i => exact ⟨_, stepAccesses_of_instr hrun hskip hd, execAccesses_length_le i _, by simp⟩
    | undefinedExt xop b => exact ⟨[], by simp [stepAccesses_of_undefinedExt hrun hskip hd], by simp, by simp⟩

/-! ### The same course from another memory -/

/-- A course that ended in `t` ends in `u` from memory `m`: all but memory is the same, and memory is that of `t` at
the words listed as written and `m` at all others. -/
def SameButMemory (l : List Access) (m : Memory) (t u : State) : Prop :=
  u = { t with mem := u.mem } ∧ ∀ x : Word, u.readMem x = if Access.write x ∈ l then t.readMem x else m.readWord x

theorem SameButMemory.of_no_write {l : List Access} (m : Memory) (t : State) (h : ∀ x, Access.write x ∉ l) :
    SameButMemory l m t { t with mem := m } :=
  ⟨rfl, fun x => (if_neg (h x)).symm⟩

/-- The listed reads do not matter to what was written. -/
theorem SameButMemory.congr {l k : List Access} {m : Memory} {t u : State} (h : SameButMemory l m t u)
    (hlk : ∀ x, Access.write x ∈ k ↔ Access.write x ∈ l) : SameButMemory k m t u :=
  ⟨h.1, fun x => by simp only [hlk x]; exact h.2 x⟩

theorem SameButMemory.charge {l : List Access} {m : Memory} {t u : State} (h : SameButMemory l m t u) (c : Nat) :
    SameButMemory l m (t.charge c) (u.charge c) :=
  ⟨congrArg (State.charge · c) h.1, h.2⟩

theorem State.writeLoc_withMem (s : State) (m : Memory) (l : Loc) (v : Word) :
    SameButMemory l.writes m (s.writeLoc l v) (State.writeLoc { s with mem := m } l v) := by
  refine ⟨by cases l <;> rfl, fun x => ?_⟩
  simp only [State.readMem_eq, State.writeLoc_readWord, Loc.write_mem_writes]
  split <;> rfl

theorem State.commit_withMem (s : State) (m : Memory) (l : Loc) (out : AluOut) :
    SameButMemory (if out.a.isSome then l.writes else []) m (s.commit l out)
      (State.commit { s with mem := m } l out) := by
  obtain ⟨_ | o, _ | v⟩ := out
  · exact .of_no_write m s (by simp)
  · exact State.writeLoc_withMem s m l v
  · exact .of_no_write m (s.setO o) (by simp)
  · exact State.writeLoc_withMem (s.setO o) m l v

theorem AgreesOn.of_mem_eq {m : Memory} {s t : State} {l : List Access} (h : AgreesOn m s l) (hmem : t.mem = s.mem) :
    AgreesOn m t l := fun x hx => (h x hx).trans (by rw [State.readMem_eq, State.readMem_eq, hmem])

/-- The latched values are the same from a memory that agrees where they are read: B's always, A's if it is latched
(R118). -/
theorem latched_withMem {m : Memory} {a b : Operand} {s : State} {latchesA writesA : Bool}
    (h : AgreesOn m s (basicAccesses latchesA writesA a b s)) :
    (latchesA = true → (resolvePair a b { s with mem := m }).aVal = (resolvePair a b s).aVal) ∧
    (resolvePair a b { s with mem := m }).bVal = (resolvePair a b s).bVal := by
  obtain ⟨ha, hrest⟩ := AgreesOn.append (h.of_mem_eq (t := (resolvePair a b s).st) (resolvePair_mem a b s))
  obtain ⟨hb, -⟩ := hrest.append
  rw [resolvePair_withMem]
  refine ⟨fun hlatch => ?_, readLoc_withMem _ _ m hb⟩
  rw [if_pos hlatch] at ha
  exact readLoc_withMem _ _ m ha

theorem write_mem_basicAccesses (latchesA writesA : Bool) (a b : Operand) (s : State) (x : Word) :
    Access.write x ∈ basicAccesses latchesA writesA a b s ↔
      Access.write x ∈ if writesA then (resolvePair a b s).la.writes else [] := by
  cases latchesA <;> simp [basicAccesses, Loc.write_not_mem_reads]

/-- The shared course from another memory, if the computation uses A's value only where A is latched, and gives a word
for A exactly where A is written. -/
theorem runAlu_withMem {f : Word → Word → AluOut} {latchesA writesA : Bool} (c : Nat) (a b : Operand) (s : State)
    (m : Memory) (hlatch : latchesA = true ∨ ∀ x x' y, f x y = f x' y) (hwrite : ∀ x y, (f x y).a.isSome = writesA)
    (h : AgreesOn m s (basicAccesses latchesA writesA a b s)) :
    SameButMemory (basicAccesses latchesA writesA a b s) m (runAlu f c a b s)
      (runAlu f c a b { s with mem := m }) := by
  obtain ⟨ha, hb⟩ := latched_withMem h
  have hout : f (resolvePair a b { s with mem := m }).aVal (resolvePair a b { s with mem := m }).bVal =
      f (resolvePair a b s).aVal (resolvePair a b s).bVal := by
    rw [hb]
    rcases hlatch with hlatch | hignore
    · rw [ha hlatch]
    · exact hignore _ _ _
  refine SameButMemory.congr ?_ (write_mem_basicAccesses latchesA writesA a b s)
  simp only [runAlu, hout]
  rw [← hwrite (resolvePair a b s).aVal (resolvePair a b s).bVal, resolvePair_withMem a b s m]
  exact (State.commit_withMem _ m _ _).charge c

theorem runIf_withMem (p : Word → Word → Bool) (a b : Operand) (s : State) (m : Memory)
    (h : AgreesOn m s (basicAccesses true false a b s)) :
    SameButMemory (basicAccesses true false a b s) m (runIf p a b s) (runIf p a b { s with mem := m }) := by
  obtain ⟨ha, hb⟩ := latched_withMem h
  simp only [runIf, ha rfl, hb]
  rw [resolvePair_withMem a b s m]
  exact .of_no_write m _ (fun x hx => by simpa using (write_mem_basicAccesses true false a b s x).mp hx)

theorem execJsr_withMem (b : Operand) (s t : State) (m : Memory) (ht : exec (.jsr b) s = .next t)
    (h : AgreesOn m s (execAccesses (.jsr b) s)) :
    ∃ u, exec (.jsr b) { s with mem := m } = .next u ∧ SameButMemory (execAccesses (.jsr b) s) m t u := by
  obtain ⟨hreads, -⟩ := AgreesOn.append (h.of_mem_eq (t := (resolve b s).2) (resolve_mem b s))
  have htarget := readLoc_withMem _ _ m hreads
  obtain rfl := Host.Outcome.next.inj ht
  refine ⟨_, rfl, ?_⟩
  simp only [resolve_withMem, htarget]
  refine ⟨rfl, fun x => ?_⟩
  have hlist : Access.write x ∈ execAccesses (.jsr b) s ↔ x = (resolve b s).2.sp - 1 := by
    simp [execAccesses, Loc.write_not_mem_reads]
  simp only [hlist, State.readMem_eq, State.charge_mem, State.setPc_mem, State.pushWord_mem,
    Memory.readWord_writeWord]
  split <;> rfl

theorem execSys_withMem (b : Operand) (s t : State) (m : Memory) (hempty : s.session.syscallTable = [])
    (ht : exec (.sys b) s = .next t) (h : AgreesOn m s (execAccesses (.sys b) s)) :
    ∃ u, exec (.sys b) { s with mem := m } = .next u ∧ SameButMemory (execAccesses (.sys b) s) m t u := by
  have hid := readLoc_withMem _ _ m (h.of_mem_eq (t := (resolve b s).2) (resolve_mem b s))
  rw [exec_sys_of_empty b s hempty] at ht
  obtain rfl := Host.Outcome.next.inj ht
  refine ⟨_, exec_sys_of_empty b { s with mem := m } hempty, ?_⟩
  simp only [resolve_withMem, hid]
  split <;> exact .of_no_write m _ (fun x => Loc.write_not_mem_reads _ x)

/-- With an empty table an instruction does the same from a memory that agrees on the words it reads. -/
theorem exec_withMem {i : Instr} {s t : State} {m : Memory} (hempty : s.session.syscallTable = [])
    (ht : exec i s = .next t) (h : AgreesOn m s (execAccesses i s)) :
    ∃ u, exec i { s with mem := m } = .next u ∧ SameButMemory (execAccesses i s) m t u := by
  cases i with
  | jsr b => exact execJsr_withMem b s t m ht h
  | sys b => exact execSys_withMem b s t m hempty ht h
  | ife a b | ifn a b | ifg a b | ifb a b =>
    obtain rfl := Host.Outcome.next.inj ht
    exact ⟨_, rfl, runIf_withMem _ a b s m h⟩
  | set a b =>
    obtain rfl := Host.Outcome.next.inj ht
    exact ⟨_, rfl, runAlu_withMem 1 a b s m (.inr fun _ _ _ => rfl) (fun _ _ => rfl) h⟩
  | shl a b =>
    obtain rfl := Host.Outcome.next.inj ht
    refine ⟨_, rfl, runAlu_withMem 2 a b s m (.inl rfl) (fun x y => ?_) h⟩
    unfold aluShl
    split <;> rfl
  | _ a b =>
    obtain rfl := Host.Outcome.next.inj ht
    exact ⟨_, rfl, runAlu_withMem _ a b s m (.inl rfl) (fun _ _ => rfl) h⟩

theorem skipped_withMem (d : Decoded) (s : State) (m : Memory) :
    skipped d { s with mem := m } = { skipped d s with mem := m } := by
  simp only [skipped_eq, resolveAll_withMem]

theorem undefinedExtended_withMem (xop : BitVec 6) (b : Operand) (w a : Word) (s : State) (m : Memory) :
    undefinedExtended xop b w a { s with mem := m } = { undefinedExtended xop b w a s with mem := m } := by
  simp only [undefinedExtended_eq, resolve_withMem]
  split <;> rfl

/-- With an empty table a step does the same from a memory that agrees on the words it reads. -/
theorem step_withMem {s t : State} {m : Memory} (hempty : s.session.syscallTable = []) (ht : step s = .next t)
    (h : AgreesOn m s (stepAccesses s)) :
    ∃ u, step { s with mem := m } = .next u ∧ SameButMemory (stepAccesses s) m t u := by
  rcases step_cases s t ht with ⟨hstop, rfl⟩ | ⟨hrun, hskip, rfl⟩ | ⟨hrun, hskip, i, hd, hexec⟩ |
    ⟨hrun, hskip, xop, b, hd, rfl⟩
  case inl =>
    rw [stepAccesses_of_stopped hstop]
    exact ⟨_, step_of_stopped { t with mem := m } hstop, .of_no_write m t (by simp)⟩
  case inr.inl =>
    rw [stepAccesses_of_skip hrun hskip] at h ⊢
    refine ⟨_, (step_of_skip { s with mem := m } hrun hskip).trans (congrArg Host.Outcome.next ?_),
      .of_no_write m _ (write_not_mem_fetchAccesses s)⟩
    rw [fetchDecode_withMem s m h]
    exact skipped_withMem _ (afterFetch s) m
  case inr.inr.inl =>
    rw [stepAccesses_of_instr hrun hskip hd] at h ⊢
    obtain ⟨hfetch, hrest⟩ := h.append
    obtain ⟨u, hu, hsame⟩ := exec_withMem (s := afterFetch s) hempty hexec (hrest.of_mem_eq rfl)
    refine ⟨u, ?_, hsame.congr (fun x => by simp [write_not_mem_fetchAccesses])⟩
    exact (step_of_instr { s with mem := m } i hrun hskip ((fetchDecode_withMem s m hfetch).trans hd)).trans hu
  case inr.inr.inr =>
    rw [stepAccesses_of_undefinedExt hrun hskip hd] at h ⊢
    have hstep := step_of_undefinedExt { s with mem := m } xop b hrun hskip ((fetchDecode_withMem s m h).trans hd)
    refine ⟨_, hstep.trans (congrArg Host.Outcome.next ?_), .of_no_write m _ (write_not_mem_fetchAccesses s)⟩
    rw [(fetchWord_withMem s m 0 h).1]
    exact undefinedExtended_withMem xop b _ _ (afterFetch s) m

/-- Settles O57: the accesses begin with the fetch, whose length is that of the decoded instruction, and a step from
another memory takes the same course. -/
theorem stepTouchesOnlyItsAccesses : Obligations.StepTouchesOnlyItsAccesses := by
  refine ⟨fun s hrun => ?_, fun s t m hempty ht h => ?_⟩
  · obtain ⟨rest, hlist, hlen, hskip⟩ := stepAccesses_of_run hrun
    have hwords : wordLength (s.readMem s.pc) = 1 + trailingCount (fetchDecode s).operands :=
      wordLength_eq_trailingCount _ _ _ _
    refine ⟨rest, ?_, hlen, hskip⟩
    rw [hlist, fetchAccesses, hwords]
  · obtain ⟨u, hu, hsame⟩ := step_withMem hempty ht h
    exact ⟨u, hu, hsame.1, hsame.2⟩

end Sys2Proof.Machine
end

section
/-! Operand resolution form by form, reset, the inspection hook, and batches (40_execution_loop.md,
70_reset_and_hazards.md). -/

namespace Sys2Proof.Machine

/-! ### Resolution form by form, and its order (R103 to R112, R115, R118) -/

/-- Settles O8: each form is one branch of `resolve`. -/
theorem operandResolution : Obligations.OperandResolution := fun _ _ _ _ =>
  ⟨rfl, rfl, rfl, rfl, rfl, rfl, rfl, rfl, rfl, rfl, rfl, rfl⟩

/-- Writing a word back where it was read changes no cell. -/
theorem Memory.readByte_writeWord_readWord (m : Memory) (a : Word) (n : Nat) :
    Memory.readByte (m.writeWord a (m.readWord a)) n = Memory.readByte m n := by
  rw [Memory.readByte_writeWord, Memory.readWord, highByte_append, lowByte_append]
  split
  · next h => rw [h]
  · split
    · next h => rw [h]
    · rfl

/-- Settles O10: the push of A comes before the pop or the read of B, and the write of A last. -/
theorem evaluationOrderExamples : Obligations.EvaluationOrderExamples := by
  refine fun s => ⟨⟨_, rfl, ?spBack, ?cells⟩, ⟨_, rfl, rfl, ?pushed⟩, ⟨_, rfl, rfl⟩⟩
  case spBack => exact BitVec.sub_add_cancel s.sp 1
  case cells => exact Memory.readByte_writeWord_readWord s.mem (s.sp - 1)
  case pushed => exact Memory.readWord_writeWord_same s.mem (s.sp - 1) (s.sp - 1)

/-! ### Reset (R32, R220) -/

theorem RegFile.get_zero (r : Reg) : RegFile.zero.get r = 0 := by
  cases r <;> rfl

/-- Settles O35: every register is 0, an empty memory reads as 0, and the host port reaches no other state. -/
theorem resetValues : Obligations.ResetValues :=
  ⟨RegFile.get_zero, rfl, rfl, rfl, rfl, rfl, rfl, Memory.readWord_nil, fun s =>
    ⟨RegFile.get_zero, rfl, rfl, rfl, rfl, rfl, rfl, Memory.readWord_nil, fun ws =>
      ⟨s.hostWrites_skip ws, s.hostWrites_status ws, s.hostWrites_cyc ws⟩⟩⟩

/-! ### The hook (R121) -/

/-- A hook that returns is absent, or has made some host writes. -/
theorem callHook_cases {s t : State} (h : callHook s = .next t) :
    (s.session.hookPresent = false ∧ t = s) ∨
      (s.session.hookPresent = true ∧ ∃ ws, t = s.countHostCall.hostWrites ws) := by
  unfold callHook at h
  split at h
  · next hp =>
    unfold afterHook at h
    split at h
    · next ws _ => exact .inr ⟨hp, ws, (Host.Outcome.next.inj h).symm⟩
    · cases h
  · next hp => exact .inl ⟨by simpa using hp, (Host.Outcome.next.inj h).symm⟩

theorem callHook_fault {s : State} {f : Fault} (h : callHook s = .fault f) : f = .hookBlocked := by
  unfold callHook at h
  split at h
  · unfold afterHook at h
    split at h <;> cases h
    rfl
  · cases h

/-- Settles O44: host writes reach R, SP, PC, O and memory only. -/
theorem hookFrame : Obligations.HookFrame := by
  intro s t h
  rcases callHook_cases h with ⟨-, rfl⟩ | ⟨hp, ws, rfl⟩
  case inl => exact ⟨rfl, rfl, rfl, rfl, fun _ => rfl⟩
  case inr =>
    exact ⟨State.hostWrites_skip _ ws, State.hostWrites_status _ ws, State.hostWrites_cyc _ ws,
      State.hostWrites_session _ ws, fun habsent => absurd (hp.symm.trans habsent) (by decide)⟩

/-! ### Why a step faults, and what it charges at most (R188, R228) -/

theorem syscall_fault {id : Word} {s : State} {f : Fault} (h : syscall id s = .fault f) : f = .syscallBlocked := by
  unfold syscall at h
  split at h
  · unfold afterSyscall at h
    split at h <;> cases h
    rfl
  · cases h

theorem exec_fault {i : Instr} {s : State} {f : Fault} (h : exec i s = .fault f) : f = .syscallBlocked := by
  cases i with
  | sys b =>
    simp only [exec, execSys] at h
    split at h
    · cases h
    · split at h
      · cases h
      · next g hg =>
        cases h
        exact syscall_fault hg
      · cases h
  | _ => cases h

theorem step_fault {s : State} {f : Fault} (h : step s = .fault f) : f = .syscallBlocked := by
  by_cases hrun : s.status = .run
  case neg => rw [step_of_stopped s hrun] at h; cases h
  case pos =>
    cases hskip : s.skip with
    | true => rw [step_of_skip s hrun hskip] at h; cases h
    | false =>
      cases hd : fetchDecode s with
      | instr i => exact exec_fault ((step_of_instr s i hrun hskip hd).symm.trans h)
      | undefinedExt xop b => rw [step_of_undefinedExt s xop b hrun hskip hd] at h; cases h

/-- The dearest step has two trailing words and a handler of 3 cycles. -/
theorem step_cyc_le_add_five {s t : State} (h : step s = .next t) : t.cyc ≤ s.cyc + 5 := by
  have hwords : wordLength (s.readMem s.pc) = 1 + trailingCount (fetchDecode s).operands :=
    wordLength_eq_trailingCount _ _ _ _
  obtain ⟨hlen, -⟩ := wordLength_le (s.readMem s.pc)
  rw [stepChargesTheCostTable s t h]
  split
  · split
    · omega
    · split
      · next i _ =>
        obtain ⟨-, hcost⟩ := handlerCost_bounds i t.skip
        omega
      · split <;> omega
  · omega

/-! ### The batch loop (R122) -/

theorem batchLoop_of_done (start budget fuel : Nat) (s : State) (h : ¬(s.status = .run ∧ s.cyc - start < budget)) :
    batchLoop start budget fuel s = .next (s, decide (s.status = .run)) := by
  unfold batchLoop
  rw [if_neg h]

/-- One round of the loop: the hook, then a step, then the rest with one unit of fuel less. -/
theorem batchLoop_round {start budget fuel : Nat} {s h t : State} (hgo : s.status = .run ∧ s.cyc - start < budget)
    (hhook : callHook s = .next h) (hstep : step h = .next t) :
    batchLoop start budget (fuel + 1) s = batchLoop start budget fuel t := by
  rw [batchLoop, if_pos hgo, hhook]
  simp only [hstep]

/-- What every round keeps holds where the loop ends, and the loop ends for one of its two reasons. -/
theorem batchLoop_next {start budget : Nat} {P : State → Prop}
    (hround : ∀ s h t, P s → s.status = .run ∧ s.cyc - start < budget → callHook s = .next h → step h = .next t → P t)
    {fuel : Nat} {s t : State} {c : Bool} (hs : P s) (h : batchLoop start budget fuel s = .next (t, c)) :
    P t ∧ ¬(t.status = .run ∧ t.cyc - start < budget) ∧ c = decide (t.status = .run) := by
  induction fuel generalizing s with
  | zero =>
    by_cases hgo : s.status = .run ∧ s.cyc - start < budget
    · rw [batchLoop, if_pos hgo] at h
      cases h
    · rw [batchLoop_of_done _ _ _ _ hgo] at h
      cases h
      exact ⟨hs, hgo, rfl⟩
  | succ n ih =>
    by_cases hgo : s.status = .run ∧ s.cyc - start < budget
    · cases hhook : callHook s with
      | next u =>
        cases hstep : step u with
        | next v =>
          rw [batchLoop_round hgo hhook hstep] at h
          exact ih (hround s u v hs hgo hhook hstep) h
        | fault f => simp only [batchLoop, if_pos hgo, hhook, hstep] at h; cases h
        | refused r => simp only [batchLoop, if_pos hgo, hhook, hstep] at h; cases h
      | fault f => simp only [batchLoop, if_pos hgo, hhook] at h; cases h
      | refused r => simp only [batchLoop, if_pos hgo, hhook] at h; cases h
    · rw [batchLoop_of_done _ _ _ _ hgo] at h
      cases h
      exact ⟨hs, hgo, rfl⟩

/-- Settles O41: the loop's guard fails where it ends, and CYC has not fallen below its start. -/
theorem executeEndsOnlyWhenDone : Obligations.ExecuteEndsOnlyWhenDone := by
  refine ⟨fun n s t c h => ?_, fun s => batchLoop_of_done _ _ _ s (by simp)⟩
  obtain ⟨hle, hdone, hc⟩ := batchLoop_next (P := fun u => s.cyc ≤ u.cyc) (fun u v w hu _ hhook hstep => by
    obtain ⟨-, -, hcyc, -, -⟩ := hookFrame u v hhook
    exact Nat.le_trans (hcyc ▸ hu) (step_cyc_le hstep)) (Nat.le_refl _) h
  refine ⟨hc, fun hrun => ?_⟩
  have hspent : ¬t.cyc - s.cyc < n := fun hlt => hdone ⟨hrun, hlt⟩
  omega

/-- Settles O43: the last round starts below the budget and charges at most 5. -/
theorem executeOvershootsByLessThanFive : Obligations.ExecuteOvershootsByLessThanFive := by
  intro n s t c h
  obtain ⟨hlt, -, -⟩ := batchLoop_next (P := fun u => u.cyc < s.cyc + n + 5) (fun u v w _ hgo hhook hstep => by
    obtain ⟨-, -, hcyc, -, -⟩ := hookFrame u v hhook
    have hle := step_cyc_le_add_five hstep
    omega) (by omega) h
  exact hlt

/-! ### The bound on steps (R124) -/

/-- Twice the cycles left up to `limit`, and one more if a skip is pending: a skipped step may charge nothing, but the
next one is executed. -/
def stepsLeft (limit : Nat) (s : State) : Nat := 2 * (limit - s.cyc) + s.skip.toNat

theorem step_stepsLeft_lt {limit : Nat} {s t : State} (hrun : s.status = .run) (hlimit : s.cyc < limit)
    (h : step s = .next t) (hrun' : t.status = .run) : stepsLeft limit t < stepsLeft limit s := by
  unfold stepsLeft
  cases hskip : s.skip with
  | true =>
    have hle := step_cyc_le h
    rw [step_skip_of_skipped hrun hskip h]
    simp only [Bool.toNat_true, Bool.toNat_false]
    omega
  | false =>
    have hlt := step_cyc_lt hrun hskip h hrun'
    have hone := Bool.toNat_le t.skip
    omega

/-- The hook leaves CYC, SKIP and the status as they are, so a round needs what its step needs. -/
theorem round_stepsLeft_lt {limit : Nat} {s h t : State} (hrun : s.status = .run) (hlimit : s.cyc < limit)
    (hhook : callHook s = .next h) (hstep : step h = .next t) (hrun' : t.status = .run) :
    stepsLeft limit t < stepsLeft limit s := by
  obtain ⟨hskip, hstatus, hcyc, -, -⟩ := hookFrame s h hhook
  have hsame : stepsLeft limit h = stepsLeft limit s := by rw [stepsLeft, stepsLeft, hskip, hcyc]
  rw [← hsame]
  exact step_stepsLeft_lt (hstatus.trans hrun) (hcyc ▸ hlimit) hstep hrun'

/-- With fuel for the steps left the loop does not run out. -/
theorem batchLoop_ne_batchBound {start budget fuel : Nat} {s : State} (hfuel : stepsLeft (start + budget) s ≤ fuel) :
    batchLoop start budget fuel s ≠ .fault .batchBound := by
  induction fuel generalizing s with
  | zero =>
    rw [batchLoop_of_done _ _ _ _ (fun hgo => by
      obtain ⟨-, hcyc⟩ := hgo
      unfold stepsLeft at hfuel
      omega)]
    exact fun h => nomatch h
  | succ n ih =>
    by_cases hgo : s.status = .run ∧ s.cyc - start < budget
    case neg => rw [batchLoop_of_done _ _ _ _ hgo]; exact fun h => nomatch h
    case pos =>
      have hlimit : s.cyc < start + budget := by omega
      cases hhook : callHook s with
      | next u =>
        cases hstep : step u with
        | next v =>
          rw [batchLoop_round hgo hhook hstep]
          by_cases hrun : v.status = .run
          · exact ih (by have := round_stepsLeft_lt hgo.1 hlimit hhook hstep hrun; omega)
          · rw [batchLoop_of_stopped _ _ _ _ hrun]; exact fun h => nomatch h
        | fault f => simp [batchLoop, hgo, hhook, hstep, step_fault hstep]
        | refused r => simp [batchLoop, hgo, hhook, hstep]
      | fault f => simp [batchLoop, hgo, hhook, callHook_fault hhook]
      | refused r => simp [batchLoop, hgo, hhook]

/-- Settles O42: at the start of a batch at most 2n + 1 steps are left. -/
theorem executeNeverRunsOutOfSteps : Obligations.ExecuteNeverRunsOutOfSteps := by
  intro n s
  refine batchLoop_ne_batchBound ?_
  have hone := Bool.toNat_le s.skip
  unfold stepsLeft
  omega

end Sys2Proof.Machine
end
